-- ==== Sys2Proof/Word.lean ====
section
/-! DEFINITION. The two widths the block works in and the byte sequence (spec/00_scope.md sections 5.1 and 5.2,
spec/10_state.md R18). -/

namespace Sys2Proof

/-- A byte, bit 7 most significant (00_scope.md section 5.1). -/
abbrev Byte := BitVec 8

/-- A 16-bit word: the CRC register, a checksum, the `info` word of a completion. -/
abbrev Word := BitVec 16

/-- A byte sequence: a finite list of bytes with offsets from 0 (00_scope.md section 5.2). -/
abbrev Bytes := List Byte

end Sys2Proof
end

