-- ==== Sys2Proof/Syntax.lean ====
section
/-! DEFINITION. The syntax of the block: the six errors, the telemetry record and the tagged payload, the instructions
(one constructor per row of spec/opcode_table.json) and the forms in which a requester presents them. -/

namespace Sys2Proof

/-- The six errors of the source's closed taxonomy (60_exceptions.md R110). -/
inductive ErrorName where
  | encodingRange        -- a value out of its field's width
  | decodingLength       -- a declared or supplied length that the payload kind does not allow
  | frameSync            -- bad sync bytes
  | unknownPayloadType   -- an unregistered (packet_class, packet_id)
  | frameTruncated       -- fewer bytes present than declared: wait for more data
  | checksumMismatch     -- the CRC does not match
  deriving DecidableEq, Repr

/-- `raise E(info)`: one error with its 16-bit information word (00_scope.md section 5.3, R110). -/
structure Raised where
  name : ErrorName
  info : Word
  deriving DecidableEq, Repr

/-- The telemetry record: eight named unbounded integers in layout order (30_encoding.md R43, 00_scope.md R7
`FIELD_PORT_W`: unbounded in the model, so that a value can be out of range). -/
structure Record where
  version   : Int
  time      : Int
  latitude  : Int
  longitude : Int
  altitude  : Int
  heading   : Int
  voltage   : Int
  fixType   : Int
  deriving DecidableEq, Repr

/-- A tagged payload `(kind, r)` (42_framer.md R80): a tagged union whose tags are the keys of `REGISTRY` of this
hardware (R90). The only kind is `Telemetry`, so an unregistered kind cannot be presented (R84). -/
inductive Payload where
  | telemetry (r : Record)
  deriving DecidableEq, Repr

/-- The instructions: the eleven operations of 30_encoding.md R50 with their operands, and the frame kind `TELEMETRY`
of opcode_table.json (R47: the pair `(packet_class, packet_id)` is the frame's opcode). -/
inductive Instr where
  /-- `PLD.ENC r` (R61). -/
  | pldEnc (r : Record)
  /-- `PLD.DEC P` (R62). -/
  | pldDec (P : Bytes)
  /-- `CRC.INIT` (R75). -/
  | crcInit
  /-- `CRC.BYTE b` (R76). -/
  | crcByte (b : Byte)
  /-- `CRC.READ` (R77). -/
  | crcRead
  /-- `CRC.BLK B` (R78). -/
  | crcBlk (B : Bytes)
  /-- `FRM.WRAP cls, id, P` (R82). -/
  | frmWrap (cls id : Byte) (P : Bytes)
  /-- `FRM.ENC (kind, r)` (R84). -/
  | frmEnc (p : Payload)
  /-- `FRM.DEC B` (R85). -/
  | frmDec (B : Bytes)
  /-- `ASM.FEED D` (R98). -/
  | asmFeed (D : Bytes)
  /-- `ASM.CLR` (R99). -/
  | asmClr
  /-- `TELEMETRY`: a candidate frame whose header is `E4 EB 05 03` and the 16-bit `payload_length` `len`, with the
  bytes `body` that follow the header (R41, R83; DESIGN CHOICE, log entry 3). -/
  | telemetry (len : Word) (body : Bytes)
  deriving DecidableEq, Repr

/-- How an instruction is carried to the block (R51: the spec does not say; DESIGN CHOICE, log entry 2): a request,
whose first byte holds the 4-bit `op` code and whose other bytes are the operand, or a candidate frame as it stands on
the wire. -/
inductive Carrier where
  | request (bytes : Bytes)
  | frame (bytes : Bytes)
  deriving DecidableEq, Repr

/-- One thing the outside world does to an instance: it presents an operation, or resets the instance between two
operations (70_reset_and_hazards.md R131, R139). -/
inductive Input where
  | present (c : Carrier)
  | reset
  deriving DecidableEq, Repr

end Sys2Proof
end

