-- ==== Sys2Proof/Config.lean ====
section
/-! DEFINITION. The parameters of the block (spec/00_scope.md R7) as one configuration record, and its fixed constants
(R8). `Config.hw` (Machine/Registry.lean) is this hardware's value of the record; its CRC parameters and its `LEN_CHECK` are
chosen in Machine/Params.lean. Every function of the framer and of the assembler takes the record, so that a claim can be
made for every parameter value (10_state.md R16, 41_crc16.md R70). -/

namespace Sys2Proof

/-- `SYNC1` and `SYNC2` (R8). -/
def sync1 : Byte := 0xE4#8
def sync2 : Byte := 0xEB#8

/-- `HDR_LEN`, `CKS_LEN`, `TLM_CLASS`, `TLM_ID`, `TLM_LEN` (R8). -/
def hdrLen : Nat := 6
def cksLen : Nat := 2
def tlmClass : Byte := 0x05#8
def tlmId : Byte := 0x03#8
def tlmLen : Nat := 24

/-- `MIN_FRAME`, `TLM_FRAME`, `MAX_PAYLOAD` (R8), derived from the constants above. -/
def minFrame : Nat := hdrLen + 0 + cksLen
def tlmFrame : Nat := hdrLen + tlmLen + cksLen
def maxPayload : Nat := 65535

/-- The value of `CRC_WIDTH` (R7): fixed by the source, and the width of `Word`. -/
def crcWidth : Nat := 16

/-- `CrcParams = (CRC_POLY, CRC_INIT, CRC_REFIN, CRC_REFOUT, CRC_XOROUT)` (41_crc16.md R70). -/
structure CrcParams where
  poly   : Word
  init   : Word
  refin  : Bool
  refout : Bool
  xorout : Word
  deriving DecidableEq, Repr

/-- `LEN_CHECK` (R7, 42_framer.md R86). -/
inductive LenCheck where
  | strict
  | trust
  deriving DecidableEq, Repr

/-- One entry of `REGISTRY` (R7): the key `(class, id)`, the expected payload length, the decoder and the encoder of one
payload kind. `π` is the type of tagged payloads, so that the framer hard-codes no kind (R6, R90). -/
structure Entry (π : Type) where
  cls    : Byte
  id     : Byte
  explen : Nat
  dec    : Bytes → Except Raised π
  enc    : π → Except Raised Bytes

/-- The build-time parameters (R7), one field for each row of the table (the five of `CrcParams` together). `none` in a bound is
the table's 'unbounded' or 'any'. The width and the three bounds are read by the checks of WellFormed.lean only, and
`nInstances` by `System.reset` through one of them (DESIGN CHOICE, log entry 7). -/
structure Config (π : Type) where
  crcWidth   : Nat
  crc        : CrcParams
  lenCheck   : LenCheck
  registry   : List (Entry π)
  asmBufCap  : Option Nat
  fieldPortW : Option Nat
  nInstances : Option Nat

end Sys2Proof
end

