-- ==== Sys2Proof/Machine/Bytes.lean ====
section
/-! DEFINITION. The block's memory primitives over byte sequences, `MemRead`, `MemWrite`, `be_n` and the slice, and the
two's-complement conversions (spec/00_scope.md sections 5.1 and 5.2, spec/20_memory.md R25, R26, R31). There is no
addressable memory: an access names a byte sequence and an offset in it (spec/10_state.md R18). -/

namespace Sys2Proof.Machine

/-- The unsigned big-endian value of a byte sequence: the byte at offset `k` of `n` has weight `2^(8(n-1-k))`. -/
def beNat : Bytes → Nat
  | [] => 0
  | b :: t => b.toNat * 256 ^ t.length + beNat t

/-- `be_n(v)`: the `n` bytes of `v`, most significant byte at the lowest offset (R26). -/
def be : (n v : Nat) → Bytes
  | 0, _ => []
  | n + 1, v => BitVec.ofNat 8 (v / 256 ^ n) :: be n v

/-- `B[a..b)`, defined only for `0 <= a <= b <= len(B)`; the caller shows its bounds (R31). -/
def slice (B : Bytes) (a b : Nat) (_h : a ≤ b ∧ b ≤ B.length) : Bytes := (B.take b).drop a

/-- `MemRead(B, off, n)`, defined only when `off + n <= len(B)`: the argument `h` is that guard, so that no rule of the
model can read beyond the end of a byte sequence (R31). -/
def memRead (B : Bytes) (off n : Nat) (_h : off + n ≤ B.length) : Nat := beNat ((B.drop off).take n)

/-- `MemWrite(B, off, n, v)`: the sequence with the `n` bytes from offset `off` replaced by `be_n(v)`. -/
def memWrite (B : Bytes) (off n v : Nat) : Bytes := B.take off ++ be n v ++ B.drop (off + n)

/-- `to_signed_N(u)` for `u` in `uN` (section 5.1). -/
def toSigned (N u : Nat) : Int := if u < 2 ^ (N - 1) then u else (u : Int) - 2 ^ N

/-- `to_unsigned_N(v)` for `v` in `sN` (section 5.1). -/
def toUnsigned (N : Nat) (v : Int) : Nat := if 0 ≤ v then v.toNat else (v + 2 ^ N).toNat

end Sys2Proof.Machine
end

