-- ==== Sys2Proof/WellFormed.lean ====
section
/-! DEFINITION. Which instructions a requester can present to a build, and which configurations are builds of this spec
(spec/00_scope.md R7, spec/43_assembler.md R101, spec/93_implementation_defined.md I10). All checks are Bools. -/

namespace Sys2Proof

/-- An integer that a two's-complement field port of `w` bits can carry; every integer where the port is unbounded
(`FIELD_PORT_W`, R7). -/
def fitsPort (w : Option Nat) (v : Int) : Bool :=
  match w with
  | none => true
  | some w => decide (-(2 ^ (w - 1) : Int) ≤ v ∧ v < 2 ^ (w - 1))

/-- All eight fields of a record fit the field port. -/
def Record.fitsPort (w : Option Nat) (r : Record) : Bool :=
  Sys2Proof.fitsPort w r.version && Sys2Proof.fitsPort w r.time && Sys2Proof.fitsPort w r.latitude &&
  Sys2Proof.fitsPort w r.longitude && Sys2Proof.fitsPort w r.altitude && Sys2Proof.fitsPort w r.heading &&
  Sys2Proof.fitsPort w r.voltage && Sys2Proof.fitsPort w r.fixType

/-- An instruction that can be presented to a build with the parameters `c`. Only a record operand can be ill-formed:
a field wider than the port cannot be presented. With this hardware's unbounded port every instruction is well-formed. -/
def Instr.wf {π : Type} (c : Config π) (i : Instr) : Bool :=
  match i with
  | .pldEnc r => r.fitsPort c.fieldPortW
  | .pldDec _ => true
  | .crcInit => true
  | .crcByte _ => true
  | .crcRead => true
  | .crcBlk _ => true
  | .frmWrap _ _ _ => true
  | .frmEnc (.telemetry r) => r.fitsPort c.fieldPortW
  | .frmDec _ => true
  | .asmFeed _ => true
  | .asmClr => true
  | .telemetry _ _ => true

/-- `MAX_FRAME` (R8): `HDR_LEN`, the largest payload a frame can have, `CKS_LEN`. Under `STRICT` that payload is the
longest expected length of the registry (24 for this hardware), under `TRUST` it is `MAX_PAYLOAD`. -/
def Config.maxFrame {π : Type} (c : Config π) : Nat :=
  match c.lenCheck with
  | .strict => hdrLen + (c.registry.map Entry.explen).foldr max 0 + cksLen
  | .trust => hdrLen + maxPayload + cksLen

/-- No two entries of the registry have the same key: the registry is a map (R7). -/
def Config.keysDistinct {π : Type} (c : Config π) : Bool :=
  decide ((c.registry.map fun e => (e.cls, e.id)).Nodup)

/-- How many instances side by side a build can have (`N_INSTANCES`, R7): any number where the parameter is 'any'. -/
def Config.admits {π : Type} (c : Config π) (n : Nat) : Bool :=
  match c.nInstances with
  | none => true
  | some m => decide (n ≤ m)

/-- A configuration that is a build of this spec: the CRC width is the 16 bits that the source fixes (R7), the registry is a
map whose expected lengths fit the two-byte length field (42_framer.md R90), a finite `abuf` holds at least `MAX_FRAME`
bytes (R7, R101, D10), and a finite field port has at least 65 bits (R7, D6). -/
def Config.wf {π : Type} (c : Config π) : Bool :=
  c.crcWidth == Sys2Proof.crcWidth && c.keysDistinct && c.registry.all (fun e => decide (e.explen ≤ maxPayload)) &&
  (match c.asmBufCap with
    | none => true
    | some n => decide (c.maxFrame ≤ n)) &&
  (match c.fieldPortW with
    | none => true
    | some w => decide (65 ≤ w))

end Sys2Proof
end

