-- ==== Sys2Proof/Decode.lean ====
section
/-! DEFINITION. Decoding what is presented to the block, and after it the encoder. The 4-bit `op` codes are those of
spec/30_encoding.md R51, the table of frame kinds that of R41 and R56. R51 leaves open how a request's operand is carried;
the operand bytes below are this model's choice (log entry 2), which adds no instruction and hides none. -/

namespace Sys2Proof

open Sys2Proof.Machine (be beNat)

/-- Why the bytes presented are no instruction. -/
inductive DecodeError where
  /-- The request has no bytes. -/
  | emptyRequest
  /-- The first byte has a bit set above the 4-bit `op` code. -/
  | noOpCode (b : Byte)
  /-- The `op` code selects no operation: 0x0, 0xC to 0xF (R52). -/
  | reservedOp (op : BitVec 4)
  /-- The operand ends too early. -/
  | truncatedOperand
  /-- Bytes follow the operand. -/
  | trailingBytes
  /-- An integer is written with more bytes than it needs. -/
  | nonCanonicalInteger
  /-- The kind byte of `FRM.ENC` is the index of no registered payload kind (R84). -/
  | unregisteredKind (k : Byte)
  /-- The bytes presented as a frame fail check (a), (b) or (c) of R83: an error of the block itself, which the machine
  raises (R48). -/
  | raised (e : Raised)
  deriving DecidableEq, Repr

/-! ### The operation codes (R50, R51) -/

/-- The eleven operations. -/
inductive Op where
  | pldEnc | pldDec | crcInit | crcByte | crcRead | crcBlk | frmWrap | frmEnc | frmDec | asmFeed | asmClr
  deriving DecidableEq, Repr

/-- The table of R51: the code of each operation. -/
def opTable : List (BitVec 4 × Op) :=
  [(0x1#4, .pldEnc), (0x2#4, .pldDec), (0x3#4, .crcInit), (0x4#4, .crcByte), (0x5#4, .crcRead), (0x6#4, .crcBlk),
   (0x7#4, .frmWrap), (0x8#4, .frmEnc), (0x9#4, .frmDec), (0xA#4, .asmFeed), (0xB#4, .asmClr)]

/-- The operation a code selects, if any (R51, R52). -/
def Op.ofCode (code : BitVec 4) : Option Op := (opTable.find? fun row => row.1 == code).map (·.2)

/-- The code of an operation (R51). -/
def Op.code : Op → BitVec 4
  | .pldEnc => 0x1#4
  | .pldDec => 0x2#4
  | .crcInit => 0x3#4
  | .crcByte => 0x4#4
  | .crcRead => 0x5#4
  | .crcBlk => 0x6#4
  | .frmWrap => 0x7#4
  | .frmEnc => 0x8#4
  | .frmDec => 0x9#4
  | .asmFeed => 0xA#4
  | .asmClr => 0xB#4

/-! ### Unbounded integers (log entry 2): seven bits a byte, least significant group first, bit 7 set on every byte but
the last; a signed integer `v` is the natural number `2v` for `v >= 0` and `-2v - 1` for `v < 0`. -/

/-- A natural number and the bytes after it. -/
def decodeNat : Bytes → Except DecodeError (Nat × Bytes)
  | [] => .error .truncatedOperand
  | b :: t =>
    if b.toNat < 128 then .ok (b.toNat, t)
    else
      match decodeNat t with
      | .error e => .error e
      | .ok (m, rest) => if m = 0 then .error .nonCanonicalInteger else .ok (b.toNat - 128 + 128 * m, rest)

/-- The signed integer a natural number stands for. -/
def unzigzag (n : Nat) : Int := if n % 2 = 0 then (n / 2 : Nat) else -((n / 2 : Nat) : Int) - 1

/-- An integer and the bytes after it. -/
def decodeInt (B : Bytes) : Except DecodeError (Int × Bytes) :=
  match decodeNat B with
  | .error e => .error e
  | .ok (n, rest) => .ok (unzigzag n, rest)

/-- A record operand: its eight integers in layout order (R43), and nothing after them. -/
def decodeRecord (B : Bytes) : Except DecodeError Record := do
  let (version, B) ← decodeInt B
  let (time, B) ← decodeInt B
  let (latitude, B) ← decodeInt B
  let (longitude, B) ← decodeInt B
  let (altitude, B) ← decodeInt B
  let (heading, B) ← decodeInt B
  let (voltage, B) ← decodeInt B
  let (fixType, B) ← decodeInt B
  if B.isEmpty then .ok { version, time, latitude, longitude, altitude, heading, voltage, fixType }
  else .error .trailingBytes

/-! ### Requests -/

/-- The operation without an operand. -/
def noOperand (i : Instr) : Bytes → Except DecodeError Instr
  | [] => .ok i
  | _ :: _ => .error .trailingBytes

/-- The instruction that an operation and its operand bytes make (operands: R50). -/
def decodeOp (op : Op) (operand : Bytes) : Except DecodeError Instr :=
  match op with
  | .pldEnc => (decodeRecord operand).map .pldEnc
  | .pldDec => .ok (.pldDec operand)
  | .crcInit => noOperand .crcInit operand
  | .crcByte =>
    match operand with
    | [] => .error .truncatedOperand
    | b :: rest => noOperand (.crcByte b) rest
  | .crcRead => noOperand .crcRead operand
  | .crcBlk => .ok (.crcBlk operand)
  | .frmWrap =>
    match operand with
    | cls :: id :: P => .ok (.frmWrap cls id P)
    | _ => .error .truncatedOperand
  | .frmEnc =>
    match operand with
    | [] => .error .truncatedOperand
    | k :: rest => if k = 0#8 then (decodeRecord rest).map (.frmEnc ∘ .telemetry) else .error (.unregisteredKind k)
  | .frmDec => .ok (.frmDec operand)
  | .asmFeed => .ok (.asmFeed operand)
  | .asmClr => noOperand .asmClr operand

/-- A request: `op` in bits 3..0 of the first byte, bits 7..4 zero, then the operand (R51). -/
def decodeRequest : Bytes → Except DecodeError Instr
  | [] => .error .emptyRequest
  | b :: operand =>
    if 16 ≤ b.toNat then .error (.noOpCode b)
    else
      match Op.ofCode (b.setWidth 4) with
      | none => .error (.reservedOp (b.setWidth 4))
      | some op => decodeOp op operand

/-! ### Frame headers (R41, R56) -/

/-- The frame kinds of opcode_table.json. -/
inductive FrameKind where
  | telemetry
  deriving DecidableEq, Repr

/-- A `FRAME_HDR` row: the kind, and `match` and `mask` over the 48-bit header word `H` (R56). -/
structure HeaderRow where
  kind    : FrameKind
  pattern : BitVec 48
  mask    : BitVec 48
  deriving DecidableEq, Repr

/-- The `FRAME_HDR` rows of opcode_table.json: one, `TELEMETRY`. -/
def headerTable : List HeaderRow := [{ kind := .telemetry, pattern := 0xE4EB05030000#48, mask := 0xFFFFFFFF0000#48 }]

/-- The header word `H`: the first six bytes as one big-endian 48-bit number, bit 47 first (R41). -/
def headerWord (B : Bytes) : BitVec 48 := BitVec.ofNat 48 (beNat (B.take 6))

/-- `packet_class` and `packet_id` as one number, `H[31:16]`. -/
def headerKind (H : BitVec 48) : Word := H.extractLsb' 16 16

/-- `payload_length`, `H[15:0]`. -/
def headerLength (H : BitVec 48) : Word := H.extractLsb' 0 16

/-- The instruction of a frame kind, with its length field and the bytes after the header. -/
def FrameKind.instr : FrameKind → Word → Bytes → Instr
  | .telemetry => .telemetry

/-- A decoder of incoming frames built from the table alone (R56): fewer than six bytes are check (a) of R83,
`H[47:32] != 0xE4EB` is check (b), and no row with `match = H & mask` is check (c). -/
def decodeFrame (B : Bytes) : Except DecodeError Instr :=
  if B.length < 6 then .error (.raised ⟨.frameTruncated, 0#16⟩)
  else
    let H := headerWord B
    if H.extractLsb' 32 16 ≠ 0xE4EB#16 then .error (.raised ⟨.frameSync, 0#16⟩)
    else
      match headerTable.find? fun row => row.pattern == (H &&& row.mask) with
      | none => .error (.raised ⟨.unknownPayloadType, headerKind H⟩)
      | some row => .ok (row.kind.instr (headerLength H) (B.drop 6))

/-- What is presented to the block as an instruction, or why it is none. Total on any bytes. -/
def decode : Carrier → Except DecodeError Instr
  | .request B => decodeRequest B
  | .frame B => decodeFrame B

/-! ### The encoder, from the same tables -/

/-- The natural number a signed integer is carried as. -/
def zigzag (v : Int) : Nat := if 0 ≤ v then 2 * v.toNat else 2 * (-v - 1).toNat + 1

/-- The bytes of `n` in at most `fuel + 1` groups of seven bits. -/
def natBytes : (fuel n : Nat) → Bytes
  | 0, n => [BitVec.ofNat 8 n]
  | fuel + 1, n =>
    if n < 128 then [BitVec.ofNat 8 n] else BitVec.ofNat 8 (128 + n % 128) :: natBytes fuel (n / 128)

/-- The bytes of a natural number: `log2 n + 1` groups are always enough. -/
def encodeNat (n : Nat) : Bytes := natBytes n.log2 n

/-- The bytes of an integer. -/
def encodeInt (v : Int) : Bytes := encodeNat (zigzag v)

/-- The bytes of a record operand: its eight integers in layout order (R43). -/
def encodeRecord (r : Record) : Bytes :=
  encodeInt r.version ++ (encodeInt r.time ++ (encodeInt r.latitude ++ (encodeInt r.longitude ++
    (encodeInt r.altitude ++ (encodeInt r.heading ++ (encodeInt r.voltage ++ encodeInt r.fixType))))))

/-- A request: the `op` code in the first byte, then the operand. -/
def Op.request (op : Op) (operand : Bytes) : Carrier := .request (op.code.setWidth 8 :: operand)

/-- How an instruction is presented. -/
def encode : Instr → Carrier
  | .pldEnc r => Op.pldEnc.request (encodeRecord r)
  | .pldDec P => Op.pldDec.request P
  | .crcInit => Op.crcInit.request []
  | .crcByte b => Op.crcByte.request [b]
  | .crcRead => Op.crcRead.request []
  | .crcBlk B => Op.crcBlk.request B
  | .frmWrap cls id P => Op.frmWrap.request (cls :: id :: P)
  | .frmEnc (.telemetry r) => Op.frmEnc.request (0#8 :: encodeRecord r)
  | .frmDec B => Op.frmDec.request B
  | .asmFeed D => Op.asmFeed.request D
  | .asmClr => Op.asmClr.request []
  | .telemetry len body => .frame ([sync1, sync2, tlmClass, tlmId] ++ be 2 len.toNat ++ body)

/-! ### The host's numbering of the opcode table -/

/-- How many operand bytes of zero make the operand of an operation whose operand is all zeros: an integer 0 and a kind
index 0 are one byte each, a byte sequence of length 0 is none. -/
def Op.zeroOperand : Op → Nat
  | .pldEnc => 8
  | .pldDec => 0
  | .crcInit => 0
  | .crcByte => 1
  | .crcRead => 0
  | .crcBlk => 0
  | .frmWrap => 2
  | .frmEnc => 9
  | .frmDec => 0
  | .asmFeed => 0
  | .asmClr => 0

/-- The carrier of an opcode-table word: an `OP` row has at most 8 bits (the `op` code), a `FRAME_HDR` row 48 (the header
word `H`, whose first byte is its most significant). What the row gives no bits is zero: the operand of a request, and
the `N` payload bytes and two checksum bytes of a frame. -/
def tableCarrier (nbits w : Nat) : Carrier :=
  if nbits ≤ 8 then
    let op := BitVec.ofNat 8 w
    .request (op :: List.replicate (((Op.ofCode (op.setWidth 4)).map Op.zeroOperand).getD 0) 0#8)
  else
    let H := be ((nbits + 7) / 8) w
    .frame (H ++ List.replicate (beNat ((H.drop 4).take 2) + cksLen) 0#8)

/-- The instruction the decoder reads from an opcode-table word. -/
def decodeTableWord (nbits w : Nat) : Option Instr := (decode (tableCarrier nbits w)).toOption

end Sys2Proof
end

