-- ==== Sys2Proof/Machine/Params.lean ====
section
/-! DEFINITION. The values this hardware takes for the parameters that the source leaves open (spec/00_scope.md R7). -/

namespace Sys2Proof

/-- The default parameter set, CRC-16/XMODEM (R7, 41_crc16.md R70). The source names the variant and gives no number, so
every checksum value of this model rests on it (UNVERIFIED, log entry 1). -/
def CrcParams.xmodem : CrcParams :=
  { poly := 0x1021#16, init := 0x0000#16, refin := false, refout := false, xorout := 0x0000#16 }

/-- The CRC parameters of this hardware (R7, column 'value here'). -/
def hwCrc : CrcParams := .xmodem

/-- `LEN_CHECK` of this hardware: `STRICT` (R7, 42_framer.md R86; the spec's decision D3, UNVERIFIED against the reference,
log entry 6). -/
def hwLenCheck : LenCheck := .strict

end Sys2Proof
end

