-- ==== Sys2Proof/Machine/State.lean ====
section
/-! DEFINITION. The state of one instance (spec/10_state.md R11): the accumulation buffer `abuf` and the CRC register
`CRCR`, and nothing else of the block's (`Block`). Beside it stand statuses, completions and events, which operations return,
and `State`, the block together with the requester's side of its port, which the host's step needs (log entry 4). -/

namespace Sys2Proof.Machine

/-- The status of a completion: `OK` or one of the six errors (60_exceptions.md R110), seven in all. -/
inductive Status where
  | ok
  | encodingRange
  | decodingLength
  | frameSync
  | unknownPayloadType
  | frameTruncated
  | checksumMismatch
  deriving DecidableEq, Repr

/-- An assembler event (43_assembler.md R96), `π` being the type of tagged payloads. -/
inductive Event (π : Type) where
  | payload (p : π)
  | error (name : ErrorName) (info : Word)
  deriving DecidableEq, Repr

/-- The result of a completion (30_encoding.md R50, column 'Result on OK'). -/
inductive Result where
  /-- No result: `CRC.INIT`, `CRC.BYTE`, `ASM.CLR`, and every error (R118). -/
  | none
  /-- A byte sequence: `PLD.ENC`, `FRM.WRAP`, `FRM.ENC`. -/
  | bytes (B : Bytes)
  /-- A record: `PLD.DEC`. -/
  | record (r : Record)
  /-- A 16-bit value: `CRC.READ`, `CRC.BLK`. -/
  | word (w : Word)
  /-- A tagged payload and the count of bytes consumed: `FRM.DEC`, and the frame kind `TELEMETRY`. -/
  | frame (p : Payload) (consumed : Nat)
  /-- A list of events: `ASM.FEED`. -/
  | events (es : List (Event Payload))
  deriving DecidableEq, Repr

/-- A completion: the triple `(status, info, result)` (R51). -/
structure Completion where
  status : Status
  info   : Word
  result : Result
  deriving DecidableEq, Repr

/-- The machine state of one instance of the block (10_state.md R11): exactly these two pieces, and nothing else survives
from one operation to the next. Operands and results are arguments and return values, not state (R10). -/
structure Block where
  /-- `abuf`, the accumulation buffer (R13). -/
  abuf : Bytes
  /-- `CRCR`, the register of the streaming CRC port (R14). -/
  crcr : Word
  deriving DecidableEq, Repr

/-- What an operation returns: the completion, which is handed to the requester, and the block it leaves. -/
structure Answer where
  completion : Completion
  block      : Block
  deriving DecidableEq, Repr

/-- One instance of the block at its port. The block's own state is the part `Block`; the other two fields are the requester's
side of the port, where an operation's operand comes from and its result goes, because the host's step has no other argument
and no other return value (log entry 4). No operation reads or writes them: an operation is a function of its operand and of
the `Block` alone (`operate`, R10). -/
structure State extends Block where
  /-- The requester's: what the outside world will still do to this instance, first thing first. The block does not
  queue (70_reset_and_hazards.md R134): a step takes the first entry and sees none of the others. -/
  inputs : List Input
  /-- The requester's: what the step that led here returned to it. -/
  completion : Option Completion
  deriving DecidableEq, Repr

/-- The reasons the machine can stop with a fault: NONE. The six errors are ordinary results (60_exceptions.md R121: the
block has no fault state and no halted state) and no behaviour is stuck (93_implementation_defined.md Part 1), so the type
has no constructor, no one raises one, and a step that faults cannot be written. Safe (DEDUCED, log entry 9). -/
inductive Fault where
  deriving DecidableEq, Repr

/-- The reasons a step has no meaning. -/
inductive Refusal where
  /-- Raised by a refused arm of `exec`; every arm has its meaning, so no one raises it. Safe. -/
  | notModelled (mnemonic : String)
  /-- Raised by `step` when the bytes presented as a request are no instruction: a reserved `op` code (R52: a model refuses
  it) or bytes that are not in this model's request format. Safe. -/
  | notAnInstruction (e : DecodeError)
  deriving DecidableEq, Repr

/-- The block right after reset, with the CRC parameters it is built with (R20): `abuf = []`, `CRCR = CRC_INIT`. -/
def Block.reset (p : CrcParams) : Block := { abuf := [], crcr := p.init }

/-- This hardware's instance right after reset (R20); nothing presented yet and nothing returned. -/
def State.reset : State :=
  { toBlock := Block.reset hwCrc, inputs := [], completion := none }

end Sys2Proof.Machine
end

