-- ==== Sys2Proof/Machine/Flags.lean ====
section
/-! DEFINITION. The status and the information word of a completion. The block has no flag register, no condition codes and
no sticky bits (spec/10_state.md R15): what stands in their place is the status that each completion carries. -/

namespace Sys2Proof.Machine

/-- The status an error is reported as (60_exceptions.md R110). -/
def errorStatus : ErrorName → Status
  | .encodingRange => .encodingRange
  | .decodingLength => .decodingLength
  | .frameSync => .frameSync
  | .unknownPayloadType => .unknownPayloadType
  | .frameTruncated => .frameTruncated
  | .checksumMismatch => .checksumMismatch

/-- The 3-bit code of a status (R110); 7 is reserved and no status has it. -/
def Status.code : Status → BitVec 3
  | .ok => 0#3
  | .encodingRange => 1#3
  | .decodingLength => 2#3
  | .frameSync => 3#3
  | .unknownPayloadType => 4#3
  | .frameTruncated => 5#3
  | .checksumMismatch => 6#3

/-- `info` of `UnknownPayloadTypeError`: `packet_class * 256 + packet_id` (R114). -/
def kindInfo (cls id : Byte) : Word := BitVec.ofNat 16 (cls.toNat * 256 + id.toNat)

/-- `info` of `EncodingRangeError` for the two-byte `payload_length` field: one past the last field index (R111). -/
def lengthFieldInfo : Word := 8#16

end Sys2Proof.Machine
end

