-- ==== Sys2Proof/Machine/Ops.lean ====
section
/-! DEFINITION. The named operations over the block: reading and writing its two items, completing an operation, raising
an error (the block's only exceptions, one shared operation); and at its port, handing a completion over, reset, and what a
step takes from the outside world. -/

namespace Sys2Proof.Machine

/-- Read `CRCR` (10_state.md R14). -/
def readCrcr (b : Block) : Word := b.crcr

/-- Write `CRCR`. -/
def writeCrcr (b : Block) (v : Word) : Block := { b with crcr := v }

/-- Read `abuf` (R13). -/
def readAbuf (b : Block) : Bytes := b.abuf

/-- Write `abuf`. -/
def writeAbuf (b : Block) (B : Bytes) : Block := { b with abuf := B }

/-- Complete an operation with status `OK` and a result; `info` is zero (30_encoding.md R51). -/
def completeOk (b : Block) (r : Result) : Answer := { completion := { status := .ok, info := 0#16, result := r }, block := b }

/-- Error entry (60_exceptions.md R118): the completion carries the status and `info` and no result; nothing is saved,
no mode changes, and `abuf` and `CRCR` are as they were. There is no return from an error (R119): the next operation runs
as if the failed one had not been issued. -/
def raiseError (b : Block) (e : Raised) : Answer :=
  { completion := { status := errorStatus e.name, info := e.info, result := .none }, block := b }

/-- End an operation in exactly one of the two ways: `return v` or `raise E(info)` (00_scope.md section 5.3). -/
def finish {α : Type} (b : Block) (asResult : α → Result) : Except Raised α → Answer
  | .ok v => completeOk b (asResult v)
  | .error e => raiseError b e

/-- At the port: the block an operation leaves stays, and its completion is handed to the requester. -/
def deliver (s : State) (a : Answer) : State :=
  { toBlock := a.block, inputs := s.inputs, completion := some a.completion }

/-- Reset (70_reset_and_hazards.md R130): `abuf <- []`, `CRCR <- CRC_INIT`, and nothing is returned to the requester. -/
def applyReset (s : State) : State :=
  { toBlock := Block.reset hwCrc, inputs := s.inputs, completion := none }

/-- No operation is presented: the block waits (R130) and never acts on its own (R139); nothing is returned. -/
def waitForInput (s : State) : State := { s with completion := none }

/-- What a step finds: nothing presented, a reset, or an instruction's carrier, with the state that is left once the input
is taken. -/
inductive Fetched where
  | nothing (s : State)
  | reset (s : State)
  | carrier (c : Carrier) (s : State)
  deriving DecidableEq, Repr

/-- Take the first input (20_memory.md R34: operations take effect one at a time, in the order presented). -/
def fetch (s : State) : Fetched :=
  match s.inputs with
  | [] => .nothing s
  | .reset :: rest => .reset { s with inputs := rest }
  | .present c :: rest => .carrier c { s with inputs := rest }

/-- What happens when the bytes presented are no instruction: an error the block itself defines is raised (checks (a), (b)
and (c) of 42_framer.md R83 on a candidate frame, R48); anything else has no meaning and is refused (R52; DESIGN CHOICE,
log entry 8). -/
def onDecodeError (e : DecodeError) (s : State) : Host.Outcome State Fault Refusal :=
  match e with
  | .raised r => .next (deliver s (raiseError s.toBlock r))
  | .emptyRequest => .refused (.notAnInstruction .emptyRequest)
  | .noOpCode b => .refused (.notAnInstruction (.noOpCode b))
  | .reservedOp op => .refused (.notAnInstruction (.reservedOp op))
  | .truncatedOperand => .refused (.notAnInstruction .truncatedOperand)
  | .trailingBytes => .refused (.notAnInstruction .trailingBytes)
  | .nonCanonicalInteger => .refused (.notAnInstruction .nonCanonicalInteger)
  | .unregisteredKind k => .refused (.notAnInstruction (.unregisteredKind k))

end Sys2Proof.Machine
end

