-- ==== Sys2Proof/Machine/Crc.lean ====
section
/-! DEFINITION. Unit CRC, the CRC-16 checksum generator: `crc_step`, `crc_final`, `crc16` over any parameter set, and the
operations `CRC.INIT`, `CRC.BYTE`, `CRC.READ` and `CRC.BLK` with this hardware's set (spec/41_crc16.md). -/

namespace Sys2Proof.Machine

/-- One shift of the division register (R72): bit 15 selects the xor with `CRC_POLY`. -/
def crcShift (p : CrcParams) (x : Word) : Word := if x.getLsbD 15 then (x <<< 1) ^^^ p.poly else x <<< 1

/-- `n` shifts. -/
def crcShifts (p : CrcParams) : Nat → Word → Word
  | 0, x => x
  | n + 1, x => crcShifts p n (crcShift p x)

/-- `crc_step(c, b)` (R72): the byte, bit-reversed under `CRC_REFIN`, enters at bits 15..8, then eight shifts. -/
def crcStep (p : CrcParams) (c : Word) (b : Byte) : Word :=
  let d := if p.refin then b.reverse else b
  crcShifts p 8 (c ^^^ (d.setWidth 16 <<< 8))

/-- `crc_final(c)` (R73). -/
def crcFinal (p : CrcParams) (c : Word) : Word := (if p.refout then c.reverse else c) ^^^ p.xorout

/-- The register after the bytes of `B`, lowest offset first, from the register value `c` (R74). -/
def crcRun (p : CrcParams) (c : Word) (B : Bytes) : Word := B.foldl (crcStep p) c

/-- `crc16(B)` (R74). -/
def crc16 (p : CrcParams) (B : Bytes) : Word := crcFinal p (crcRun p p.init B)

/-- `CRC.INIT` (R75). -/
def opCrcInit (b : Block) : Answer := completeOk (writeCrcr b hwCrc.init) .none

/-- `opCrcInit` at the port. -/
def execCrcInit (s : State) : Host.Outcome State Fault Refusal := .next (deliver s (opCrcInit s.toBlock))

/-- `CRC.BYTE x` (R76). -/
def opCrcByte (x : Byte) (b : Block) : Answer := completeOk (writeCrcr b (crcStep hwCrc (readCrcr b) x)) .none

/-- `opCrcByte` at the port. -/
def execCrcByte (x : Byte) (s : State) : Host.Outcome State Fault Refusal := .next (deliver s (opCrcByte x s.toBlock))

/-- `CRC.READ` (R77): `CRCR` is left unchanged. -/
def opCrcRead (b : Block) : Answer := completeOk b (.word (crcFinal hwCrc (readCrcr b)))

/-- `opCrcRead` at the port. -/
def execCrcRead (s : State) : Host.Outcome State Fault Refusal := .next (deliver s (opCrcRead s.toBlock))

/-- `CRC.BLK B` (R78): the checksum is computed in a local variable, off `CRCR`. -/
def opCrcBlk (B : Bytes) (b : Block) : Answer := completeOk b (.word (crc16 hwCrc B))

/-- `opCrcBlk` at the port. -/
def execCrcBlk (B : Bytes) (s : State) : Host.Outcome State Fault Refusal := .next (deliver s (opCrcBlk B s.toBlock))

end Sys2Proof.Machine
end

