-- ==== Sys2Proof/Machine/Operands.lean ====
section
/-! DEFINITION. Operand assembly: the layout of the telemetry payload and how one record field is read from and written to
its bytes (spec/30_encoding.md R43, R44, R45, spec/40_payload_codec.md R60). -/

namespace Sys2Proof.Machine

/-- The fields of a record, by name. -/
inductive Field where
  | version | time | latitude | longitude | altitude | heading | voltage | fixType
  deriving DecidableEq, Repr

/-- `r.name`. -/
def Field.get (r : Record) : Field → Int
  | .version => r.version
  | .time => r.time
  | .latitude => r.latitude
  | .longitude => r.longitude
  | .altitude => r.altitude
  | .heading => r.heading
  | .voltage => r.voltage
  | .fixType => r.fixType

/-- `r.name <- v`. -/
def Field.set (r : Record) (v : Int) : Field → Record
  | .version => { r with version := v }
  | .time => { r with time := v }
  | .latitude => { r with latitude := v }
  | .longitude => { r with longitude := v }
  | .altitude => { r with altitude := v }
  | .heading => { r with heading := v }
  | .voltage => { r with voltage := v }
  | .fixType => { r with fixType := v }

/-- A row of `TLM_LAYOUT` (R60): the row carries the fact that its field lies inside the 24 bytes. -/
structure LayoutRow where
  index  : Nat
  field  : Field
  offset : Nat
  size   : Nat
  signed : Bool
  fits   : offset + size ≤ tlmLen

/-- `TLM_LAYOUT` (R43, R60). -/
def tlmLayout : List LayoutRow :=
  [⟨0, .version, 0, 1, false, by decide⟩, ⟨1, .time, 1, 8, false, by decide⟩,
   ⟨2, .latitude, 9, 4, true, by decide⟩, ⟨3, .longitude, 13, 4, true, by decide⟩,
   ⟨4, .altitude, 17, 2, false, by decide⟩, ⟨5, .heading, 19, 2, true, by decide⟩,
   ⟨6, .voltage, 21, 2, false, by decide⟩, ⟨7, .fixType, 23, 1, false, by decide⟩]

/-- The range a field's width can represent (R43): `s(8n)` for a signed field (R45), `u(8n)` for an unsigned one (R44). -/
def fieldInRange (signed : Bool) (n : Nat) (v : Int) : Bool :=
  if signed then decide (-(2 ^ (8 * n - 1)) ≤ v ∧ v ≤ 2 ^ (8 * n - 1) - 1)
  else decide (0 ≤ v ∧ v ≤ 2 ^ (8 * n) - 1)

/-- The unsigned number a field in range is stored as (R44, R45). -/
def fieldToNat (signed : Bool) (n : Nat) (v : Int) : Nat := if signed then toUnsigned (8 * n) v else v.toNat

/-- The value of a field whose bytes hold the unsigned number `u` (R44, R45). -/
def fieldOfNat (signed : Bool) (n : Nat) (u : Nat) : Int := if signed then toSigned (8 * n) u else (u : Int)

end Sys2Proof.Machine
end

