-- ==== Sys2Proof/Machine/Codec.lean ====
section
/-! DEFINITION. Unit PLD, the payload codec: `tlm_encode`, `tlm_decode` and the operations `PLD.ENC` and `PLD.DEC`
(spec/40_payload_codec.md). -/

namespace Sys2Proof.Machine

/-- The rows still to encode, and the bytes written so far (R61). Fields are checked in layout order and the first that is
out of range ends the encoding with its index in `info`. -/
def encodeRows (r : Record) : List LayoutRow → Bytes → Except Raised Bytes
  | [], P => .ok P
  | row :: rows, P =>
    let v := row.field.get r
    if fieldInRange row.signed row.size v then
      encodeRows r rows (memWrite P row.offset row.size (fieldToNat row.signed row.size v))
    else .error ⟨.encodingRange, BitVec.ofNat 16 row.index⟩

/-- `tlm_encode(r)` (R61): 24 bytes or `EncodingRangeError(i)`. -/
def tlmEncode (r : Record) : Except Raised Bytes := encodeRows r tlmLayout (List.replicate tlmLen 0#8)

/-- The rows still to decode, and the record read so far (R62). -/
def decodeRows (P : Bytes) (h : tlmLen ≤ P.length) : List LayoutRow → Record → Record
  | [], r => r
  | row :: rows, r =>
    let u := memRead P row.offset row.size (Nat.le_trans row.fits h)
    decodeRows P h rows (row.field.set r (fieldOfNat row.signed row.size u))

/-- `tlm_decode(P)` (R62): the record in the first 24 bytes, or `DecodingLengthError(0)` when there are fewer. -/
def tlmDecode (P : Bytes) : Except Raised Record :=
  if h : P.length < tlmLen then .error ⟨.decodingLength, 0#16⟩
  else .ok (decodeRows P (Nat.le_of_not_lt h) tlmLayout ⟨0, 0, 0, 0, 0, 0, 0, 0⟩)

/-- `PLD.ENC r` (R61). -/
def opPldEnc (r : Record) (b : Block) : Answer := finish b .bytes (tlmEncode r)

/-- `opPldEnc` at the port. -/
def execPldEnc (r : Record) (s : State) : Host.Outcome State Fault Refusal := .next (deliver s (opPldEnc r s.toBlock))

/-- `PLD.DEC P` (R62). -/
def opPldDec (P : Bytes) (b : Block) : Answer := finish b .record (tlmDecode P)

/-- `opPldDec` at the port. -/
def execPldDec (P : Bytes) (s : State) : Host.Outcome State Fault Refusal := .next (deliver s (opPldDec P s.toBlock))

end Sys2Proof.Machine
end

