-- ==== Sys2Proof/Machine/Registry.lean ====
section
/-! DEFINITION. `REGISTRY` as a finite map, the telemetry entry, and this hardware's configuration (spec/00_scope.md R7,
spec/30_encoding.md R47, spec/42_framer.md R90). -/

namespace Sys2Proof

/-- The registry as a map: the entry whose key is `(cls, id)`; every other pair is unregistered (R47; a list
looked up by its first matching key: DESIGN CHOICE, log entry 10). -/
def Config.lookup {π : Type} (c : Config π) (cls id : Byte) : Option (Entry π) :=
  c.registry.find? fun e => e.cls == cls && e.id == id

open Sys2Proof.Machine in
/-- The telemetry entry: `(0x05, 0x03)` to (24, `tlm_decode`, `tlm_encode`) (R7, R80). -/
def tlmEntry : Entry Payload :=
  { cls := tlmClass
    id := tlmId
    explen := tlmLen
    dec := fun P => (tlmDecode P).map Payload.telemetry
    enc := fun p => match p with
      | .telemetry r => tlmEncode r }

/-- `REGISTRY[kind]` for the kind of a tagged payload, a key of the registry by type (42_framer.md R84). -/
def Payload.entry : Payload → Entry Payload
  | .telemetry _ => tlmEntry

/-- The parameters of this hardware (R7, column 'value here'). -/
def Config.hw : Config Payload :=
  { crcWidth := Sys2Proof.crcWidth
    crc := hwCrc
    lenCheck := hwLenCheck
    registry := [tlmEntry]
    asmBufCap := none
    fieldPortW := none
    nInstances := none }

/-- This hardware with another CRC parameter set and another `LEN_CHECK`: the builds for which the spec states its claims
'under either value of LEN_CHECK and every CrcParams' (42_framer.md R88). -/
def Config.hwWith (p : CrcParams) (l : LenCheck) : Config Payload := { Config.hw with crc := p, lenCheck := l }

end Sys2Proof
end

