-- ==== Sys2Proof/Machine/Framer.lean ====
section
/-! DEFINITION. Unit FRM, the packet framer: `frame_wrap` and `frame_decode` over any configuration (registry, `LEN_CHECK`,
`CrcParams`), and the operations `FRM.WRAP`, `FRM.ENC` and `FRM.DEC` of this hardware (spec/42_framer.md). -/

namespace Sys2Proof.Machine

/-- `frame_wrap(cls, id, P)` (R81): sync bytes, class, id, length, payload, then the checksum over all of them (R71). -/
def frameWrap (p : CrcParams) (cls id : Byte) (P : Bytes) : Except Raised Bytes :=
  if maxPayload < P.length then .error ⟨.encodingRange, lengthFieldInfo⟩
  else
    let B := [sync1, sync2, cls, id] ++ be 2 P.length ++ P
    .ok (B ++ be cksLen (crc16 p B).toNat)

/-- The encode half of the framer (R84): the payload through its kind's encoder, then `frame_wrap`. -/
def frameEncode {π : Type} (c : Config π) (e : Entry π) (p : π) : Except Raised Bytes :=
  match e.enc p with
  | .error x => .error x
  | .ok P => frameWrap c.crc e.cls e.id P

/-- `frame_size(B)` (30_encoding.md R42): the length of a frame, told from its first six bytes; unbounded arithmetic. -/
def frameSize (B : Bytes) (h : hdrLen ≤ B.length) : Nat := hdrLen + memRead B 4 2 (Nat.le_trans (by decide) h) + cksLen

/-- `frame_decode(B)` (R83): the checks (a), (b), (c), (L), (d), (e) in this order, the first that fails ending the
operation, then the payload decoder. Bytes after the frame are ignored, and the count of bytes consumed is returned. -/
def frameDecode {π : Type} (c : Config π) (B : Bytes) : Except Raised (π × Nat) :=
  -- (a) enough bytes for a header
  if ha : B.length < hdrLen then .error ⟨.frameTruncated, 0#16⟩
  else
    have hh : hdrLen ≤ B.length := Nat.le_of_not_lt ha
    -- (b) sync
    if B[0]'(Nat.lt_of_lt_of_le (by decide) hh) ≠ sync1 ∨ B[1]'(Nat.lt_of_lt_of_le (by decide) hh) ≠ sync2 then
      .error ⟨.frameSync, 0#16⟩
    else
      -- (c) registered type
      let cls := B[2]'(Nat.lt_of_lt_of_le (by decide) hh)
      let id := B[3]'(Nat.lt_of_lt_of_le (by decide) hh)
      match c.lookup cls id with
      | none => .error ⟨.unknownPayloadType, kindInfo cls id⟩
      | some e =>
        let N := memRead B 4 2 (Nat.le_trans (by decide) hh)
        -- (L) payload-length check (R86)
        if c.lenCheck = .strict ∧ N ≠ e.explen then .error ⟨.decodingLength, 0#16⟩
        -- (d) whole frame present
        else if hd : B.length < hdrLen + N + cksLen then .error ⟨.frameTruncated, 0#16⟩
        else
          have hf : hdrLen + N + cksLen ≤ B.length := Nat.le_of_not_lt hd
          have hp : hdrLen + N ≤ B.length := Nat.le_trans (Nat.le_add_right _ _) hf
          -- (e) checksum
          if (crc16 c.crc (slice B 0 (hdrLen + N) ⟨Nat.zero_le _, hp⟩)).toNat ≠ memRead B (hdrLen + N) cksLen hf then
            .error ⟨.checksumMismatch, 0#16⟩
          else
            match e.dec (slice B hdrLen (hdrLen + N) ⟨Nat.le_add_right _ _, hp⟩) with
            | .error x => .error x
            | .ok p => .ok (p, hdrLen + N + cksLen)

/-- `FRM.WRAP cls, id, P` (R82): the registry is not consulted. -/
def opFrmWrap (cls id : Byte) (P : Bytes) (b : Block) : Answer := finish b .bytes (frameWrap hwCrc cls id P)

/-- `opFrmWrap` at the port. -/
def execFrmWrap (cls id : Byte) (P : Bytes) (s : State) : Host.Outcome State Fault Refusal :=
  .next (deliver s (opFrmWrap cls id P s.toBlock))

/-- `FRM.ENC (kind, r)` (R84). -/
def opFrmEnc (p : Payload) (b : Block) : Answer := finish b .bytes (frameEncode Config.hw p.entry p)

/-- `opFrmEnc` at the port. -/
def execFrmEnc (p : Payload) (s : State) : Host.Outcome State Fault Refusal := .next (deliver s (opFrmEnc p s.toBlock))

/-- The result of `frame_decode`: the tagged payload and the count of bytes consumed. -/
def frameResult (x : Payload × Nat) : Result := .frame x.1 x.2

/-- `FRM.DEC B` (R85). -/
def opFrmDec (B : Bytes) (b : Block) : Answer := finish b frameResult (frameDecode Config.hw B)

/-- `opFrmDec` at the port. -/
def execFrmDec (B : Bytes) (s : State) : Host.Outcome State Fault Refusal := .next (deliver s (opFrmDec B s.toBlock))

/-- The bytes of a candidate frame of the kind `TELEMETRY`: its header (R41) and what follows it. -/
def telemetryFrame (len : Word) (body : Bytes) : Bytes :=
  [sync1, sync2, tlmClass, tlmId] ++ be 2 len.toNat ++ body

/-- The frame kind `TELEMETRY` of opcode_table.json, whose row cites R83: the candidate frame is validated and its payload
decoded, as `FRM.DEC` does with the frame's bytes (log entry 3). -/
def opTelemetry (len : Word) (body : Bytes) (b : Block) : Answer :=
  finish b frameResult (frameDecode Config.hw (telemetryFrame len body))

/-- `opTelemetry` at the port. -/
def execTelemetry (len : Word) (body : Bytes) (s : State) : Host.Outcome State Fault Refusal :=
  .next (deliver s (opTelemetry len body s.toBlock))

end Sys2Proof.Machine
end

