-- ==== Sys2Proof/Machine/Assembler.lean ====
section
/-! DEFINITION. Unit ASM, the stream assembler: `asm_drain` over any configuration, and the operations `ASM.FEED` and
`ASM.CLR` of this hardware (spec/43_assembler.md). -/

namespace Sys2Proof.Machine

/-- What one pass of the drain loop decides (R97, R103). -/
inductive Pass (π : Type) where
  /-- The scan discards the leading byte, without an event. -/
  | discard
  /-- Nothing more can be decided: exit the loop. -/
  | wait
  /-- A frame passed every check: its payload is an event, and its bytes leave the buffer. -/
  | emit (p : π) (consumed : Nat)
  /-- A decode error: an event, and the first sync byte leaves the buffer. -/
  | drop (e : Raised)
  deriving DecidableEq, Repr

/-- One pass of the loop of R97 on the bytes now in `abuf`. -/
def asmPass {π : Type} (c : Config π) (buf : Bytes) : Pass π :=
  if 1 ≤ buf.length ∧ buf[0]? ≠ some sync1 then .discard
  else if 2 ≤ buf.length ∧ buf[1]? ≠ some sync2 then .discard
  else if buf.length < hdrLen then .wait
  else
    match frameDecode c buf with
    | .ok (p, consumed) => .emit p consumed
    | .error e => if e.name = .frameTruncated then .wait else .drop e

/-- The loop of R97 on a buffer of which the first `skip` bytes have already been removed: the recursion is on the buffer,
so that the loop ends by construction (R100), and `abuf <- drop(abuf, k)` sets `skip` (DEDUCED, log entry 11). It answers
the events in the order they are produced and what is left in the buffer. -/
def asmLoop {π : Type} (c : Config π) : (buf : Bytes) → (skip : Nat) → List (Event π) × Bytes
  | [], _ => ([], [])
  | _ :: t, skip + 1 => asmLoop c t skip
  | b :: t, 0 =>
    match asmPass c (b :: t) with
    | .discard => asmLoop c t 0
    | .wait => ([], b :: t)
    | .emit p consumed => let r := asmLoop c t (consumed - 1); (.payload p :: r.1, r.2)
    | .drop e => let r := asmLoop c t 0; (.error e.name e.info :: r.1, r.2)

/-- `asm_drain()` (R97) on the buffer contents `buf`: the events and the buffer left. -/
def asmDrain {π : Type} (c : Config π) (buf : Bytes) : List (Event π) × Bytes := asmLoop c buf 0

/-- `ASM.FEED D` as a function of the buffer (R98): append, then drain. -/
def asmFeed {π : Type} (c : Config π) (abuf D : Bytes) : List (Event π) × Bytes := asmDrain c (abuf ++ D)

/-- `ASM.FEED D` (R98): the status is always `OK`, and every error met is an event of the result. -/
def opAsmFeed (D : Bytes) (b : Block) : Answer :=
  let r := asmFeed Config.hw (readAbuf b) D
  completeOk (writeAbuf b r.2) (.events r.1)

/-- `opAsmFeed` at the port. -/
def execAsmFeed (D : Bytes) (s : State) : Host.Outcome State Fault Refusal := .next (deliver s (opAsmFeed D s.toBlock))

/-- `ASM.CLR` (R99): `CRCR` is not touched. -/
def opAsmClr (b : Block) : Answer := completeOk (writeAbuf b []) .none

/-- `opAsmClr` at the port. -/
def execAsmClr (s : State) : Host.Outcome State Fault Refusal := .next (deliver s (opAsmClr s.toBlock))

end Sys2Proof.Machine
end

