-- ==== Sys2Proof/Machine/Dispatch.lean ====
section
/-! DEFINITION. The dispatch of instructions to their meanings: one arm per constructor of `Instr`. -/

namespace Sys2Proof.Machine

def exec (i : Instr) (s : State) : Host.Outcome State Fault Refusal :=
  match i with
  | .pldEnc r => Sys2Proof.Machine.execPldEnc r s
  | .pldDec P => Sys2Proof.Machine.execPldDec P s
  | .crcInit => Sys2Proof.Machine.execCrcInit s
  | .crcByte b => Sys2Proof.Machine.execCrcByte b s
  | .crcRead => Sys2Proof.Machine.execCrcRead s
  | .crcBlk B => Sys2Proof.Machine.execCrcBlk B s
  | .frmWrap cls id P => Sys2Proof.Machine.execFrmWrap cls id P s
  | .frmEnc p => Sys2Proof.Machine.execFrmEnc p s
  | .frmDec B => Sys2Proof.Machine.execFrmDec B s
  | .asmFeed D => Sys2Proof.Machine.execAsmFeed D s
  | .asmClr => Sys2Proof.Machine.execAsmClr s
  | .telemetry len body => Sys2Proof.Machine.execTelemetry len body s

end Sys2Proof.Machine
end

