-- ==== Sys2Proof/Machine/Step.lean ====
section
/-! DEFINITION. One step of one instance: take the first input of the outside world, and let the block do the one atomic
operation it asks for (spec/20_memory.md R30, R34, spec/70_reset_and_hazards.md R134). -/

namespace Sys2Proof.Machine

/-- One step. With nothing presented the block waits; a reset between operations resets it; an operation presented is
decoded and executed to completion (one whole operation a step: DEDUCED, log entry 13). -/
def step (s : State) : Host.Outcome State Fault Refusal :=
  match fetch s with
  | .nothing s' => .next (waitForInput s')
  | .reset s' => .next (applyReset s')
  | .carrier c s' =>
    match decode c with
    | .ok i => exec i s'
    | .error e => onDecodeError e s'

/-- The state in which the instruction of an opcode-table word is what the requester presents next (log entry 5). -/
def State.withFetchWord (s : State) (nbits w : Nat) : State :=
  { s with inputs := .present (tableCarrier nbits w) :: s.inputs }

end Sys2Proof.Machine
end

