-- ==== Sys2Proof/Machine/Instances.lean ====
section
/-! DEFINITION. Several instances side by side (`N_INSTANCES`, spec/00_scope.md R7): each has its own `abuf` and `CRCR`,
there is no identifier and no communication between them (spec/10_state.md R21, spec/60_exceptions.md R124). -/

namespace Sys2Proof.Machine

/-- `n` instances of the block. -/
abbrev System (n : Nat) := Vector State n

/-- `n` instances right after reset (R20), where the build can have that many (R7). -/
def System.reset {π : Type} (c : Config π) (n : Nat) : Option (System n) :=
  if c.admits n then
    some (Vector.replicate n { toBlock := Block.reset c.crc, inputs := [], completion := none })
  else none

/-- Instance `k` takes one step; the others are left as they are (DEDUCED, log entry 14). -/
def stepAt {n : Nat} (k : Fin n) (sys : System n) : Host.Outcome (System n) Fault Refusal :=
  match step sys[k] with
  | .next s => .next (sys.set k s)
  | .fault f => .fault f
  | .refused r => .refused r

end Sys2Proof.Machine
end

