-- ==== Sys2Proof/Machine/Operate.lean ====
section
/-! DEFINITION. The step function of the block as spec/10_state.md R10 asks for it: the operation and its operand are the
argument, the result is the return value, and the machine state is the `Block`. -/

namespace Sys2Proof.Machine

/-- One operation on one block: what it returns and the block it leaves. Total: every operation completes
(70_reset_and_hazards.md R141). -/
def operate (i : Instr) (b : Block) : Answer :=
  match i with
  | .pldEnc r => opPldEnc r b
  | .pldDec P => opPldDec P b
  | .crcInit => opCrcInit b
  | .crcByte x => opCrcByte x b
  | .crcRead => opCrcRead b
  | .crcBlk B => opCrcBlk B b
  | .frmWrap cls id P => opFrmWrap cls id P b
  | .frmEnc p => opFrmEnc p b
  | .frmDec B => opFrmDec B b
  | .asmFeed D => opAsmFeed D b
  | .asmClr => opAsmClr b
  | .telemetry len body => opTelemetry len body b

end Sys2Proof.Machine
end

