-- ==== Sys2Proof/Machine/Program.lean ====
section
/-! DEFINITION. Programs: sequences of operations on one instance, in order (spec/30_encoding.md R54, spec/20_memory.md
R34), and the pseudo-operations (R55). -/

namespace Sys2Proof

/-- Pseudo-operation `TLM.PKT r` (R55): the source's `encode_telemetry_packet(fields) -> bytes`. -/
def Pseudo.tlmPkt (r : Record) : List Instr := [.frmEnc (.telemetry r)]

/-- Pseudo-operation `ASM.PUSH b` (R55): the byte-serial form of `feed`. -/
def Pseudo.asmPush (b : Byte) : List Instr := [.asmFeed [b]]

/-- Pseudo-operation `CRC.OF B` (R55): `CRC.INIT`, one `CRC.BYTE` for each byte, `CRC.READ`. -/
def Pseudo.crcOf (B : Bytes) : List Instr := .crcInit :: (B.map .crcByte ++ [.crcRead])

/-- A program as the requester presents it: one input an operation, in order. -/
def presentAll (prog : List Instr) : List Input := prog.map fun i => .present (encode i)

namespace Machine

/-- Run the operations of a program one after the other; the state they leave and the completions they return, in order. -/
def runOps : List Instr → State → Host.Outcome (State × List Completion) Fault Refusal
  | [], s => .next (s, [])
  | i :: prog, s =>
    match exec i s with
    | .fault f => .fault f
    | .refused r => .refused r
    | .next t =>
      match runOps prog t with
      | .fault f => .fault f
      | .refused r => .refused r
      | .next (u, cs) => .next (u, t.completion.toList ++ cs)

/-- The events of a list of completions, those of each `ASM.FEED` in turn (70_reset_and_hazards.md R136). -/
def eventsOf : List Completion → List (Event Payload)
  | [] => []
  | c :: cs =>
    (match c.result with
      | .events es => es
      | .none => []
      | .bytes _ => []
      | .record _ => []
      | .word _ => []
      | .frame _ _ => []) ++ eventsOf cs

end Machine

end Sys2Proof
end

