-- ==== Sys2Proof/Safety.lean ====
section
/-! DEFINITION. The terms in which claims about the block are made: the field ranges, well-formed frames, the quiescent form
of the accumulation buffer and the invariant of the machine, which parameters are lawful, and which status, event and
state change each instruction may have. No meaning uses these. -/

namespace Sys2Proof

open Sys2Proof.Machine

/-- The eight ranges of spec/30_encoding.md R43, by index, each with whether the record's field is inside it. -/
def Record.rangeChecks (r : Record) : List (Nat × Bool) :=
  [(0, decide (0 ≤ r.version ∧ r.version ≤ 255)),
   (1, decide (0 ≤ r.time ∧ r.time ≤ 18446744073709551615)),
   (2, decide (-2147483648 ≤ r.latitude ∧ r.latitude ≤ 2147483647)),
   (3, decide (-2147483648 ≤ r.longitude ∧ r.longitude ≤ 2147483647)),
   (4, decide (0 ≤ r.altitude ∧ r.altitude ≤ 65535)),
   (5, decide (-32768 ≤ r.heading ∧ r.heading ≤ 32767)),
   (6, decide (0 ≤ r.voltage ∧ r.voltage ≤ 65535)),
   (7, decide (0 ≤ r.fixType ∧ r.fixType ≤ 255))]

/-- A record whose fields are all in the ranges of R43. -/
def Record.inRange (r : Record) : Bool := r.rangeChecks.all (·.2)

/-- The index of the first field in layout order that is out of range (60_exceptions.md R111). -/
def Record.firstOutOfRange (r : Record) : Option Nat := (r.rangeChecks.find? fun c => !c.2).map (·.1)

/-- `payload_length` of a byte sequence that has a header: the two bytes at offset 4, big-endian (R46). -/
def lengthField (B : Bytes) : Nat := beNat ((B.drop 4).take 2)

/-- A byte sequence that begins with the sync pair. -/
def BeginsWithSync (B : Bytes) : Prop := B[0]? = some sync1 ∧ B[1]? = some sync2

/-- The registry entry of the pair at offsets 2 and 3. -/
def KindOf {π : Type} (c : Config π) (B : Bytes) (e : Entry π) : Prop :=
  ∃ cls id, B[2]? = some cls ∧ B[3]? = some id ∧ c.lookup cls id = some e

/-- A well-formed frame (spec/42_framer.md R87). -/
def WellFormedFrame {π : Type} (c : Config π) (F : Bytes) : Prop :=
  minFrame ≤ F.length ∧ BeginsWithSync F ∧
  ∃ e, KindOf c F e ∧ lengthField F = e.explen ∧ F.length = 8 + e.explen ∧
    beNat ((F.drop (6 + e.explen)).take 2) = (crc16 c.crc (F.take (6 + e.explen))).toNat

/-- The four forms `abuf` has between operations (spec/43_assembler.md R101). -/
def Quiescent {π : Type} (c : Config π) (buf : Bytes) : Prop :=
  buf = [] ∨ buf = [sync1] ∨
  (2 ≤ buf.length ∧ buf.length ≤ 5 ∧ BeginsWithSync buf) ∨
  (6 ≤ buf.length ∧ BeginsWithSync buf ∧
    ∃ e, KindOf c buf e ∧ (c.lenCheck = .strict → lengthField buf = e.explen) ∧ buf.length < 8 + lengthField buf)

/-- The invariant of the machine: between operations `abuf` has one of the four forms of R101. -/
def QuiescentState (s : State) : Prop := Quiescent Config.hw s.abuf

/-- What R90 asks of a registry entry: an expected length that fits the length field, an encoder that returns exactly
that many bytes or `EncodingRangeError`, a decoder that succeeds on every sequence of at least that many bytes and
otherwise answers `DecodingLengthError(0)` (R112). -/
structure Entry.Lawful {π : Type} (e : Entry π) : Prop where
  explen_le : e.explen ≤ maxPayload
  enc_length : ∀ p P, e.enc p = .ok P → P.length = e.explen
  enc_error : ∀ p x, e.enc p = .error x → x.name = .encodingRange
  dec_ok : ∀ P, e.explen ≤ P.length → ∃ p, e.dec P = .ok p
  dec_error : ∀ P x, e.dec P = .error x → x = ⟨.decodingLength, 0#16⟩

/-- A configuration whose registry is lawful and whose bounds are those of a build of this spec. -/
def Config.Lawful {π : Type} (c : Config π) : Prop := c.wf = true ∧ ∀ e ∈ c.registry, e.Lawful

/-- The statuses each instruction can end with (spec/60_exceptions.md R127). A candidate frame of the kind `TELEMETRY` has
its sync bytes and its kind by construction, so two of the statuses of `FRM.DEC` cannot occur. -/
def Instr.mayEndWith : Instr → List Status
  | .pldEnc _ => [.ok, .encodingRange]
  | .pldDec _ => [.ok, .decodingLength]
  | .crcInit => [.ok]
  | .crcByte _ => [.ok]
  | .crcRead => [.ok]
  | .crcBlk _ => [.ok]
  | .frmWrap _ _ _ => [.ok, .encodingRange]
  | .frmEnc _ => [.ok, .encodingRange]
  | .frmDec _ => [.ok, .decodingLength, .frameSync, .unknownPayloadType, .frameTruncated, .checksumMismatch]
  | .asmFeed _ => [.ok]
  | .asmClr => [.ok]
  | .telemetry _ _ => [.ok, .decodingLength, .frameTruncated, .checksumMismatch]

/-- The instructions that may change `CRCR` (spec/10_state.md R14). -/
def Instr.writesCrcr : Instr → Bool
  | .crcInit => true
  | .crcByte _ => true
  | .pldEnc _ => false
  | .pldDec _ => false
  | .crcRead => false
  | .crcBlk _ => false
  | .frmWrap _ _ _ => false
  | .frmEnc _ => false
  | .frmDec _ => false
  | .asmFeed _ => false
  | .asmClr => false
  | .telemetry _ _ => false

/-- The instructions that may change `abuf` (R13). -/
def Instr.writesAbuf : Instr → Bool
  | .asmFeed _ => true
  | .asmClr => true
  | .pldEnc _ => false
  | .pldDec _ => false
  | .crcInit => false
  | .crcByte _ => false
  | .crcRead => false
  | .crcBlk _ => false
  | .frmWrap _ _ _ => false
  | .frmEnc _ => false
  | .frmDec _ => false
  | .telemetry _ _ => false

/-- The instructions whose completion depends on their operand alone (spec/20_memory.md R30, spec/40_payload_codec.md R65,
spec/42_framer.md R80): all but `CRC.READ` and `ASM.FEED`. -/
def Instr.readsNoState : Instr → Bool
  | .crcRead => false
  | .asmFeed _ => false
  | .pldEnc _ => true
  | .pldDec _ => true
  | .crcInit => true
  | .crcByte _ => true
  | .crcBlk _ => true
  | .frmWrap _ _ _ => true
  | .frmEnc _ => true
  | .frmDec _ => true
  | .asmClr => true
  | .telemetry _ _ => true

/-- No `E4 EB` pair inside a byte sequence: noise that cannot start a candidate frame (spec/43_assembler.md R98). -/
def noSyncPair : Bytes → Bool
  | [] => true
  | [_] => true
  | a :: b :: t => !(a == sync1 && b == sync2) && noSyncPair (b :: t)

/-- The two bytes of a 16-bit value, most significant first (spec/20_memory.md R26). -/
def wordBytes (w : Word) : Bytes := [w.extractLsb' 8 8, w.extractLsb' 0 8]

/-- The completion of an operation that ends with an error: no result (spec/60_exceptions.md R118). -/
def failed (st : Status) (info : Word) : Option Completion := some { status := st, info := info, result := .none }

/-- The completion of an operation that ends with status `OK`: `info` is zero (spec/30_encoding.md R51). -/
def completed (r : Result) : Option Completion := some { status := .ok, info := 0#16, result := r }

/-- A byte sequence with bit `j` of the byte at offset `k` inverted. -/
def flipBit (B : Bytes) (k j : Nat) : Bytes := B.modify k fun b => b ^^^ BitVec.twoPow 8 j

/-- Byte by byte xor of two sequences (spec/41_crc16.md R79). -/
def xorBytes (A B : Bytes) : Bytes := List.zipWith (· ^^^ ·) A B

end Sys2Proof
end

