-- ==== Sys2Proof/Certificates/Slice0/Obligations.lean ====
section
/-! DEFINITION. The statements about the block, for the provers. They come from the numbered rules of spec/; a statement that
holds for this hardware's CRC parameters only names the assumption "CrcParams = XMODEM" (spec/41_crc16.md R70, log entry 1)
in its docstring, and every other statement about checksums holds whatever those parameters are. -/

open Sys2Proof Sys2Proof.Machine

/-! ### Reset, inputs and steps -/

/-- R20: after reset `abuf = []` and `CRCR = CRC_INIT`. -/
def Obligations.ResetEmptiesBufferAndLoadsCrcInit : Prop :=
  State.reset.abuf = [] ∧ State.reset.crcr = Config.hw.crc.init

/-- R130, R131: a reset between two operations puts `abuf` and `CRCR` at their reset values and touches nothing that is
still to be presented; nothing is returned (the model's own field `completion`, log entry 4). -/
def Obligations.ResetInputRestoresResetState : Prop :=
  ∀ (s : State) (rest : List Input), s.inputs = .reset :: rest →
    step s = .next { State.reset with inputs := rest }

/-- R139: with nothing presented the block does not act: `abuf` and `CRCR` stay as they are, and nothing is returned (a step
without an input is this model's, log entry 4). -/
def Obligations.IdleBlockKeepsItsState : Prop :=
  ∀ s : State, s.inputs = [] → step s = .next { s with completion := none }

/-- R34: a step takes the first thing presented, and when it decodes to an instruction the step is that instruction's
execution, with what is still to be presented left in order (inputs as a list in the state: log entry 4). -/
def Obligations.StepRunsTheDecodedInstruction : Prop :=
  ∀ (s : State) (c : Carrier) (rest : List Input) (i : Instr), s.inputs = .present c :: rest → decode c = .ok i →
    step s = exec i { s with inputs := rest }

/-- R52: the `op` values 0x0 and 0xC to 0xF select no operation: such a request is refused, whatever its operand (where the
code stands in a request: log entry 2). -/
def Obligations.ReservedOpCodesAreRefused : Prop :=
  ∀ (s : State) (op : BitVec 4) (operand : Bytes) (rest : List Input),
    s.inputs = .present (.request (op.setWidth 8 :: operand)) :: rest →
    (op = 0x0#4 ∨ op = 0xC#4 ∨ op = 0xD#4 ∨ op = 0xE#4 ∨ op = 0xF#4) →
    step s = .refused (.notAnInstruction (.reservedOp op))

/-- R55, R54, R34: a program presented as requests, one input an operation, runs as its operations in order, and what is
presented after it is left for later steps (request bytes: log entry 2; inputs: log entry 4). -/
def Obligations.PresentedProgramRunsInOrder : Prop :=
  ∀ (prog : List Instr) (s t : State) (cs : List Completion) (rest : List Input), runOps prog s = .next (t, cs) →
    Host.Core.run Sys2Proof.core prog.length { s with inputs := presentAll prog ++ rest } =
      .next { t with inputs := rest }

/-! ### Encodings -/

/-- Decode of encode is the instruction, for every instruction and every operand value (operand bytes: log entry 2). -/
def Obligations.DecodeUndoesEncode : Prop := ∀ i : Instr, decode (encode i) = .ok i

/-- Each instruction is presented in one way only: whatever decodes to it is its encoding (log entry 2). -/
def Obligations.EncodeUndoesDecode : Prop := ∀ (c : Carrier) (i : Instr), decode c = .ok i → encode i = c

/-- R51: the table of `op` codes, written out: each code selects its operation (operand bytes: log entry 2; the frame: log
entry 3). -/
def Obligations.OpCodesSelectTheirOperations : Prop :=
  decode (.request [0x01, 0x02, 0, 0, 0, 0, 0xB3, 0x01, 0, 0]) = .ok (.pldEnc ⟨1, 0, 0, 0, 0, -90, 0, 0⟩) ∧
  decode (.request [0x02, 0xAA, 0xBB]) = .ok (.pldDec [0xAA, 0xBB]) ∧
  decode (.request [0x03]) = .ok .crcInit ∧
  decode (.request [0x04, 0x31]) = .ok (.crcByte 0x31) ∧
  decode (.request [0x05]) = .ok .crcRead ∧
  decode (.request [0x06, 0x31, 0x32]) = .ok (.crcBlk [0x31, 0x32]) ∧
  decode (.request [0x07, 0x01, 0x02, 0xAA, 0xBB]) = .ok (.frmWrap 0x01 0x02 [0xAA, 0xBB]) ∧
  decode (.request [0x08, 0, 1, 0, 0, 0, 0, 0, 0, 0]) = .ok (.frmEnc (.telemetry ⟨-1, 0, 0, 0, 0, 0, 0, 0⟩)) ∧
  decode (.request [0x09, 0xE4]) = .ok (.frmDec [0xE4]) ∧
  decode (.request [0x0A, 0xEB]) = .ok (.asmFeed [0xEB]) ∧
  decode (.request [0x0B]) = .ok .asmClr ∧
  decode (.frame [0xE4, 0xEB, 0x05, 0x03, 0x00, 0x18, 0x07]) = .ok (.telemetry 0x0018 [0x07])

/-- R41: the fields of the 48-bit header word, and which header words belong to the telemetry kind. -/
def Obligations.HeaderWordFields : Prop :=
  ∀ (b0 b1 b2 b3 b4 b5 : Byte) (body : Bytes),
    let B := b0 :: b1 :: b2 :: b3 :: b4 :: b5 :: body
    let H := headerWord B
    H.extractLsb' 40 8 = b0 ∧ H.extractLsb' 32 8 = b1 ∧ H.extractLsb' 24 8 = b2 ∧ H.extractLsb' 16 8 = b3 ∧
    H.extractLsb' 0 16 = b4 ++ b5 ∧
    (H &&& 0xFFFFFFFF0000#48 = 0xE4EB05030000#48 ↔ b0 = 0xE4 ∧ b1 = 0xEB ∧ b2 = 0x05 ∧ b3 = 0x03)

/-- R56: the decoder of incoming frames built from the table agrees with checks (a), (b) and (c) of `frame_decode`: a
candidate frame presented as it stands (log entry 3) ends as `FRM.DEC` of its bytes does. -/
def Obligations.PresentedFrameEndsAsFrmDec : Prop :=
  ∀ (s : State) (B : Bytes) (rest : List Input), s.inputs = .present (.frame B) :: rest →
    step s = exec (.frmDec B) { s with inputs := rest }

/-! ### Byte sequences -/

/-- 00_scope.md section 5.2, R26: `be_n` puts the most significant byte at the lowest offset; `MemRead(be_n(v), 0, n) = v`; a
field written is read back, the length stays, and every byte outside the field is as before. -/
def Obligations.MemWriteIsReadBackAndChangesNothingElse : Prop :=
  (∀ n v k : Nat, k < n → (be n v)[k]? = some (BitVec.ofNat 8 (v / 256 ^ (n - 1 - k)))) ∧
  (∀ (n v : Nat) (h : 0 + n ≤ (be n v).length), v < 256 ^ n → memRead (be n v) 0 n h = v) ∧
  ∀ (B : Bytes) (off n v : Nat), off + n ≤ B.length → v < 256 ^ n →
    (memWrite B off n v).length = B.length ∧
    (∀ h : off + n ≤ (memWrite B off n v).length, memRead (memWrite B off n v) off n h = v) ∧
    ∀ k : Nat, k < off ∨ off + n ≤ k → (memWrite B off n v)[k]? = B[k]?

/-! ### Payload codec -/

/-- R61, R43 to R45, R111: `PLD.ENC r` returns the 24 bytes of the layout, the signed fields in two's complement, when every
field is in range; otherwise it ends with `EncodingRangeError(i)`, `i` the first field out of range in layout order. Only
the completion is written. -/
def Obligations.PldEncReturnsTheLayoutOrTheFirstBadField : Prop :=
  ∀ (r : Record) (s : State),
    (r.inRange = true → exec (.pldEnc r) s = .next { s with completion := completed (.bytes
      (be 1 r.version.toNat ++ be 8 r.time.toNat ++ be 4 (r.latitude % 2 ^ 32).toNat ++ be 4 (r.longitude % 2 ^ 32).toNat ++
        be 2 r.altitude.toNat ++ be 2 (r.heading % 2 ^ 16).toNat ++ be 2 r.voltage.toNat ++ be 1 r.fixType.toNat)) }) ∧
    (∀ i : Nat, r.firstOutOfRange = some i →
      exec (.pldEnc r) s = .next { s with completion := failed .encodingRange (BitVec.ofNat 16 i) }) ∧
    (r.inRange = true ↔ r.firstOutOfRange = none)

/-- R62, R43 to R45: `PLD.DEC P` returns the record in the first 24 bytes, whatever follows them, or ends with
`DecodingLengthError(0)` when there are fewer. Only the completion is written. -/
def Obligations.PldDecReturnsTheRecordOrLengthError : Prop :=
  ∀ (P : Bytes) (s : State),
    (P.length < 24 → exec (.pldDec P) s = .next { s with completion := failed .decodingLength 0#16 }) ∧
    (24 ≤ P.length → exec (.pldDec P) s = .next { s with completion := completed (.record
      { version := beNat (P.take 1)
        time := beNat ((P.drop 1).take 8)
        latitude := Int.bmod (beNat ((P.drop 9).take 4)) (2 ^ 32)
        longitude := Int.bmod (beNat ((P.drop 13).take 4)) (2 ^ 32)
        altitude := beNat ((P.drop 17).take 2)
        heading := Int.bmod (beNat ((P.drop 19).take 2)) (2 ^ 16)
        voltage := beNat ((P.drop 21).take 2)
        fixType := beNat ((P.drop 23).take 1) }) })

/-- R63: an in-range record is encoded to 24 bytes, and decoding them gives the record back. -/
def Obligations.PayloadRoundTrip : Prop :=
  ∀ r : Record, r.inRange = true → ∃ P, tlmEncode r = .ok P ∧ P.length = 24 ∧ tlmDecode P = .ok r

/-- R66: `tlm_encode` is a bijection from the in-range records onto the 24-byte sequences, with `tlm_decode` as inverse. -/
def Obligations.PayloadCodecIsABijection : Prop :=
  (∀ P : Bytes, P.length = 24 → ∃ r, tlmDecode P = .ok r ∧ r.inRange = true ∧ tlmEncode r = .ok P) ∧
  ∀ r r' : Record, r.inRange = true → r'.inRange = true → tlmEncode r = tlmEncode r' → r = r'

/-- R7, D6: a field port of 65 bits carries every in-range record, and this hardware's unbounded port every instruction. -/
def Obligations.PortOf65BitsCarriesEveryInRangeRecord : Prop :=
  (∀ r : Record, r.inRange = true → r.fitsPort (some 65) = true) ∧ ∀ i : Instr, i.wf Config.hw = true

/-! ### CRC-16 -/

/-- R75, R76, R77: what the three operations of the streaming port do to `CRCR` and what they return; nothing else of the
state changes. -/
def Obligations.StreamingCrcPortOperations : Prop :=
  ∀ (s : State) (b : Byte),
    exec .crcInit s = .next { s with crcr := Config.hw.crc.init, completion := completed .none } ∧
    exec (.crcByte b) s = .next { s with crcr := crcStep Config.hw.crc s.crcr b, completion := completed .none } ∧
    exec .crcRead s = .next { s with completion := completed (.word (crcFinal Config.hw.crc s.crcr)) }

/-- R72, R141: for every parameter set, taking a byte bit by bit is what a table of 256 words does: the register moves up by
eight bits and is xored with the entry of the byte that leaves it xor the byte taken (bit-reversed under `CRC_REFIN`). -/
def Obligations.CrcStepIsATableLookup : Prop :=
  ∀ (p : CrcParams) (c : Word) (b : Byte),
    let d := if p.refin then b.reverse else b
    crcStep p c b = (c <<< 8) ^^^ crcShifts p 8 (((c.extractLsb' 8 8) ^^^ d).setWidth 16 <<< 8)

/-- R78: `CRC.BLK B` returns `crc16(B)` and touches no state, and the streaming port, driven with the same bytes, returns the
same value. -/
def Obligations.CrcBlkEqualsTheStreamingPort : Prop :=
  ∀ (B : Bytes) (s : State),
    exec (.crcBlk B) s = .next { s with completion := completed (.word (crc16 Config.hw.crc B)) } ∧
    ∃ t cs, runOps (Pseudo.crcOf B) s = .next (t, cs) ∧ t.completion = completed (.word (crc16 Config.hw.crc B)) ∧
      t.abuf = s.abuf

/-- R79, under CrcParams = XMODEM: linearity over equal lengths, zero residue over a sequence and its checksum, blindness to
a leading zero byte, and a single inverted bit always changes the checksum. -/
def Obligations.XmodemProperties : Prop :=
  (∀ A B : Bytes, A.length = B.length → crc16 .xmodem (xorBytes A B) = crc16 .xmodem A ^^^ crc16 .xmodem B) ∧
  (∀ B : Bytes, crc16 .xmodem (B ++ be 2 (crc16 .xmodem B).toNat) = 0#16) ∧
  (∀ B : Bytes, crc16 .xmodem (0#8 :: B) = crc16 .xmodem B) ∧
  (∀ (B : Bytes) (k j : Nat), k < B.length → j < 8 → crc16 .xmodem (flipBit B k j) ≠ crc16 .xmodem B)

/-- R135: whatever other operations of a program fall between them, `CRCR` is what the `CRC.INIT` and `CRC.BYTE` operations
alone make of it, in their order. -/
def Obligations.CrcrFollowsInitAndByteOnly : Prop :=
  ∀ (prog : List Instr) (s t : State) (cs : List Completion), runOps prog s = .next (t, cs) →
    ∃ t' cs', runOps (prog.filter Instr.writesCrcr) s = .next (t', cs') ∧ t'.crcr = t.crcr

/-! ### Framer -/

/-- R81, R82: `FRM.WRAP` builds the frame of any class, id and payload, the checksum over every byte before it, most
significant byte first; a payload longer than 65535 bytes ends with `EncodingRangeError(8)`. -/
def Obligations.FrmWrapBuildsTheFrame : Prop :=
  ∀ (cls id : Byte) (P : Bytes) (s : State),
    let B := [0xE4#8, 0xEB#8, cls, id] ++ wordBytes (BitVec.ofNat 16 P.length) ++ P
    (P.length ≤ 65535 → exec (.frmWrap cls id P) s =
      .next { s with completion := completed (.bytes (B ++ wordBytes (crc16 Config.hw.crc B))) }) ∧
    (65535 < P.length → exec (.frmWrap cls id P) s = .next { s with completion := failed .encodingRange 8#16 })

/-- R84: `FRM.ENC` returns the 32-byte frame around the encoded record, or the payload encoder's error. -/
def Obligations.FrmEncBuildsTheTelemetryFrame : Prop :=
  ∀ (r : Record) (s : State),
    (r.inRange = true → ∃ P, tlmEncode r = .ok P ∧ P.length = 24 ∧
      exec (.frmEnc (.telemetry r)) s = .next { s with completion := completed (.bytes
        ([0xE4#8, 0xEB#8, 0x05#8, 0x03#8, 0x00#8, 0x18#8] ++ P ++
          wordBytes (crc16 Config.hw.crc ([0xE4#8, 0xEB#8, 0x05#8, 0x03#8, 0x00#8, 0x18#8] ++ P)))) }) ∧
    (∀ i : Nat, r.firstOutOfRange = some i →
      exec (.frmEnc (.telemetry r)) s = .next { s with completion := failed .encodingRange (BitVec.ofNat 16 i) })

/-- R83, R117 for `FRM.DEC`: over every configuration, the checks of `frame_decode` in their order (a), (b), (c), (L), (d),
(e), the first that fails giving the error, then the payload decoder and the count of bytes consumed. -/
def Obligations.FrameDecodeChecksInOrder : Prop :=
  ∀ (π : Type) (c : Config π),
    (∀ B : Bytes, B.length < 6 → frameDecode c B = .error ⟨.frameTruncated, 0#16⟩) ∧
    ∀ (b0 b1 b2 b3 b4 b5 : Byte) (body : Bytes),
      let B := b0 :: b1 :: b2 :: b3 :: b4 :: b5 :: body
      let N := b4.toNat * 256 + b5.toNat
      (¬ (b0 = 0xE4 ∧ b1 = 0xEB) → frameDecode c B = .error ⟨.frameSync, 0#16⟩) ∧
      (b0 = 0xE4 → b1 = 0xEB →
        (c.lookup b2 b3 = none → frameDecode c B = .error ⟨.unknownPayloadType, b2 ++ b3⟩) ∧
        ∀ e : Entry π, c.lookup b2 b3 = some e →
          (c.lenCheck = .strict → N ≠ e.explen → frameDecode c B = .error ⟨.decodingLength, 0#16⟩) ∧
          ((c.lenCheck = .strict → N = e.explen) →
            (B.length < 8 + N → frameDecode c B = .error ⟨.frameTruncated, 0#16⟩) ∧
            (8 + N ≤ B.length →
              (beNat ((B.drop (6 + N)).take 2) ≠ (crc16 c.crc (B.take (6 + N))).toNat →
                frameDecode c B = .error ⟨.checksumMismatch, 0#16⟩) ∧
              (beNat ((B.drop (6 + N)).take 2) = (crc16 c.crc (B.take (6 + N))).toNat →
                frameDecode c B = (e.dec ((B.take (6 + N)).drop 6)).map fun p => (p, 8 + N)))))

/-- R85 on this hardware, from R83: what `FRM.DEC B` ends with, by the first failing check; with all checks passed it returns
the telemetry record and 32. Only the completion is written. -/
def Obligations.FrmDecReportsTheFirstFailingCheck : Prop :=
  ∀ s : State,
    (∀ B : Bytes, B.length < 6 → exec (.frmDec B) s = .next { s with completion := failed .frameTruncated 0#16 }) ∧
    ∀ (b0 b1 b2 b3 b4 b5 : Byte) (body : Bytes),
      let B := b0 :: b1 :: b2 :: b3 :: b4 :: b5 :: body
      (¬ (b0 = 0xE4 ∧ b1 = 0xEB) → exec (.frmDec B) s = .next { s with completion := failed .frameSync 0#16 }) ∧
      (b0 = 0xE4 → b1 = 0xEB →
        (¬ (b2 = 0x05 ∧ b3 = 0x03) →
          exec (.frmDec B) s = .next { s with completion := failed .unknownPayloadType (b2 ++ b3) }) ∧
        (b2 = 0x05 → b3 = 0x03 →
          (¬ (b4 = 0x00 ∧ b5 = 0x18) → exec (.frmDec B) s = .next { s with completion := failed .decodingLength 0#16 }) ∧
          (b4 = 0x00 → b5 = 0x18 →
            (B.length < 32 → exec (.frmDec B) s = .next { s with completion := failed .frameTruncated 0#16 }) ∧
            (32 ≤ B.length →
              ((B.drop 30).take 2 ≠ wordBytes (crc16 Config.hw.crc (B.take 30)) →
                exec (.frmDec B) s = .next { s with completion := failed .checksumMismatch 0#16 }) ∧
              ((B.drop 30).take 2 = wordBytes (crc16 Config.hw.crc (B.take 30)) →
                ∃ r, tlmDecode (body.take 24) = .ok r ∧
                  exec (.frmDec B) s = .next { s with completion := completed (.frame (.telemetry r) 32) })))))

/-- The frame kind `TELEMETRY` of the opcode table (R83 from check (L) on; what executing the row means is log entry 3): the
candidate frame `E4 EB 05 03`, `len`, `body` ends by the first failing check, or with its record and 32. -/
def Obligations.TelemetryFrameEndsByFirstFailingCheck : Prop :=
  ∀ (len : Word) (body : Bytes) (s : State),
    let B := [0xE4#8, 0xEB#8, 0x05#8, 0x03#8, 0x00#8, 0x18#8] ++ body.take 24
    (len ≠ 24#16 → exec (.telemetry len body) s = .next { s with completion := failed .decodingLength 0#16 }) ∧
    (len = 24#16 →
      (body.length < 26 → exec (.telemetry len body) s = .next { s with completion := failed .frameTruncated 0#16 }) ∧
      (26 ≤ body.length →
        ((body.drop 24).take 2 ≠ wordBytes (crc16 Config.hw.crc B) →
          exec (.telemetry len body) s = .next { s with completion := failed .checksumMismatch 0#16 }) ∧
        ((body.drop 24).take 2 = wordBytes (crc16 Config.hw.crc B) →
          ∃ r, tlmDecode (body.take 24) = .ok r ∧
            exec (.telemetry len body) s = .next { s with completion := completed (.frame (.telemetry r) 32) })))

/-- R86: the payload-length checker, for every CRC parameter set. Under `STRICT` a length other than 24 in a telemetry header
is `DecodingLengthError` whatever follows. Under `TRUST`, on a whole frame with a matching checksum, a length below 24 is
`DecodingLengthError` and one above 24 succeeds, decodes the first 24 payload bytes and consumes `8 + N`. -/
def Obligations.PayloadLengthChecker : Prop :=
  ∀ (p : CrcParams) (b4 b5 : Byte) (body : Bytes),
    let B := 0xE4#8 :: 0xEB#8 :: 0x05#8 :: 0x03#8 :: b4 :: b5 :: body
    let N := b4.toNat * 256 + b5.toNat
    (N ≠ 24 → frameDecode (Config.hwWith p .strict) B = .error ⟨.decodingLength, 0#16⟩) ∧
    (B.length < 8 + N → frameDecode (Config.hwWith p .trust) B = .error ⟨.frameTruncated, 0#16⟩) ∧
    (8 + N ≤ B.length →
      (beNat ((B.drop (6 + N)).take 2) ≠ (crc16 p (B.take (6 + N))).toNat →
        frameDecode (Config.hwWith p .trust) B = .error ⟨.checksumMismatch, 0#16⟩) ∧
      (beNat ((B.drop (6 + N)).take 2) = (crc16 p (B.take (6 + N))).toNat →
        (N < 24 → frameDecode (Config.hwWith p .trust) B = .error ⟨.decodingLength, 0#16⟩) ∧
        (24 ≤ N → ∃ r, tlmDecode (body.take 24) = .ok r ∧
          frameDecode (Config.hwWith p .trust) B = .ok (.telemetry r, 8 + N))))

/-- R87: under `STRICT`, `frame_decode(B)` succeeds exactly when `B` has a header, is long enough for the frame its length
field announces, and begins with a well-formed frame of that size; under `TRUST` also a frame with a longer length and a
correct checksum is accepted. For every lawful registry. -/
def Obligations.FrameDecodeSucceedsExactlyOnWellFormedFrames : Prop :=
  ∀ (π : Type) (c : Config π) (B : Bytes), c.Lawful →
    (c.lenCheck = .strict →
      ((∃ p n, frameDecode c B = .ok (p, n)) ↔
        6 ≤ B.length ∧ 8 + lengthField B ≤ B.length ∧ WellFormedFrame c (B.take (8 + lengthField B)))) ∧
    (c.lenCheck = .trust → 6 ≤ B.length → BeginsWithSync B → 8 + lengthField B ≤ B.length →
      ∀ e : Entry π, KindOf c B e → e.explen ≤ lengthField B →
        beNat ((B.drop (6 + lengthField B)).take 2) = (crc16 c.crc (B.take (6 + lengthField B))).toNat →
        ∃ p, frameDecode c B = .ok (p, 8 + lengthField B))

/-- R88: round trip through the framer, under either value of `LEN_CHECK` and every CRC parameter set, whatever bytes follow
the frame. -/
def Obligations.FrameRoundTrip : Prop :=
  ∀ (p : CrcParams) (l : LenCheck) (r : Record), r.inRange = true →
    ∃ F, frameEncode (Config.hwWith p l) tlmEntry (.telemetry r) = .ok F ∧ F.length = 32 ∧
      WellFormedFrame (Config.hwWith p l) F ∧
      ∀ X : Bytes, frameDecode (Config.hwWith p l) (F ++ X) = .ok (.telemetry r, 32)

/-- R89, under CrcParams = XMODEM and STRICT: every single-bit flip of a well-formed telemetry frame makes `FRM.DEC` fail, with
the error of the byte the bit is in. -/
def Obligations.SingleBitFlipNeverDecodes : Prop :=
  ∀ (F : Bytes) (k j : Nat) (s : State), WellFormedFrame Config.hw F → k < 32 → j < 8 →
    let outcome :=
      if k < 2 then failed .frameSync 0#16
      else if k = 2 then failed .unknownPayloadType (0x0503#16 ^^^ BitVec.twoPow 16 (j + 8))
      else if k = 3 then failed .unknownPayloadType (0x0503#16 ^^^ BitVec.twoPow 16 j)
      else if k < 6 then failed .decodingLength 0#16
      else failed .checksumMismatch 0#16
    exec (.frmDec (flipBit F k j)) s = .next { s with completion := outcome }

/-- R89 for every CRC parameter set: a bit flipped in the checksum bytes is always found; and under `TRUST` a bit flipped in
the length bytes never gives a payload: the length gets larger and the frame is truncated, or smaller (16 or 8) and the
checksum or the payload decoder rejects it. -/
def Obligations.ChecksumAndLengthFlipsForEveryCrc : Prop :=
  ∀ (p : CrcParams) (l : LenCheck) (F : Bytes) (k j : Nat), WellFormedFrame (Config.hwWith p l) F → j < 8 →
    (k = 30 ∨ k = 31 → frameDecode (Config.hwWith p l) (flipBit F k j) = .error ⟨.checksumMismatch, 0#16⟩) ∧
    (l = .trust → (k = 4 ∨ k = 5 ∧ j ≠ 3 ∧ j ≠ 4) →
      frameDecode (Config.hwWith p l) (flipBit F k j) = .error ⟨.frameTruncated, 0#16⟩) ∧
    (l = .trust → k = 5 → (j = 3 ∨ j = 4) →
      frameDecode (Config.hwWith p l) (flipBit F k j) = .error ⟨.checksumMismatch, 0#16⟩ ∨
      frameDecode (Config.hwWith p l) (flipBit F k j) = .error ⟨.decodingLength, 0#16⟩)

/-- R47: this hardware recognises exactly one pair, `(0x05, 0x03)`, the telemetry payload, with expected payload length
24. -/
def Obligations.OnlyTelemetryIsRegistered : Prop :=
  (∃ e, Config.hw.lookup 0x05 0x03 = some e ∧ e.explen = 24 ∧ (∀ P, e.dec P = (tlmDecode P).map .telemetry) ∧
    ∀ r, e.enc (.telemetry r) = tlmEncode r) ∧
  ∀ cls id : Byte, ¬ (cls = 0x05 ∧ id = 0x03) → Config.hw.lookup cls id = none

/-- R90, R7: the registry of this hardware has every property that the rules on registries ask for, with every CRC parameter
set and either value of `LEN_CHECK`. -/
def Obligations.HardwareRegistryIsLawful : Prop :=
  ∀ (p : CrcParams) (l : LenCheck), (Config.hwWith p l).Lawful

/-- R42: a frame is self-delimiting. The size computed from the first six bytes is between 8 and 65543; it is the length of a
frame that was built, whatever bytes follow it, and the count of bytes that `frame_decode` consumes. -/
def Obligations.FrameSizeIsTheFrameLength : Prop :=
  (∀ (B : Bytes) (h : hdrLen ≤ B.length), 8 ≤ frameSize B h ∧ frameSize B h ≤ 65543) ∧
  (∀ (p : CrcParams) (cls id : Byte) (P F X : Bytes), frameWrap p cls id P = .ok F →
    ∃ h : hdrLen ≤ (F ++ X).length, frameSize (F ++ X) h = F.length) ∧
  ∀ (π : Type) (c : Config π) (B : Bytes) (p : π) (n : Nat), frameDecode c B = .ok (p, n) →
    ∃ h : hdrLen ≤ B.length, n = frameSize B h

/-! ### Stream assembler -/

/-- R98: `ASM.FEED D` appends `D` to `abuf` and drains it; the status is `OK`, the result the events, and `CRCR` is not
touched. Feeding nothing to a buffer in one of the forms it has between operations returns no event and leaves it. -/
def Obligations.AsmFeedAppendsAndDrains : Prop :=
  ∀ (D : Bytes) (s : State),
    exec (.asmFeed D) s = .next { s with abuf := (asmDrain Config.hw (s.abuf ++ D)).2,
                                         completion := completed (.events (asmDrain Config.hw (s.abuf ++ D)).1) } ∧
    (QuiescentState s → exec (.asmFeed []) s = .next { s with completion := completed (.events []) })

/-- R99: `ASM.CLR` empties the accumulation buffer; `CRCR` is not touched. -/
def Obligations.AsmClrEmptiesTheBuffer : Prop :=
  ∀ s : State, exec .asmClr s = .next { s with abuf := [], completion := completed .none }

/-- R97, R103: the drain loop, over every configuration: what it does with a leading byte that cannot start a frame, with a
buffer too short for a header, and with each outcome of `frame_decode`; and, when the registry is lawful, `FrameSyncError` is
no outcome there (R97 point 4). -/
def Obligations.DrainLoopOutcomes : Prop :=
  ∀ (π : Type) (c : Config π),
    asmDrain c [] = ([], []) ∧
    (∀ (b : Byte) (t : Bytes), b ≠ 0xE4 → asmDrain c (b :: t) = asmDrain c t) ∧
    (∀ (b : Byte) (t : Bytes), b ≠ 0xEB → asmDrain c (0xE4 :: b :: t) = asmDrain c (b :: t)) ∧
    asmDrain c [0xE4] = ([], [0xE4]) ∧
    (∀ t : Bytes, t.length < 4 → asmDrain c (0xE4 :: 0xEB :: t) = ([], 0xE4 :: 0xEB :: t)) ∧
    ∀ t : Bytes, 4 ≤ t.length →
      let buf := 0xE4 :: 0xEB :: t
      (∀ p n, frameDecode c buf = .ok (p, n) →
        asmDrain c buf = (.payload p :: (asmDrain c (buf.drop n)).1, (asmDrain c (buf.drop n)).2)) ∧
      (∀ e, frameDecode c buf = .error e →
        (e.name = .frameTruncated → asmDrain c buf = ([], buf)) ∧
        (e.name ≠ .frameTruncated →
          asmDrain c buf = (.error e.name e.info :: (asmDrain c (buf.drop 1)).1, (asmDrain c (buf.drop 1)).2)) ∧
        (c.Lawful → e.name ≠ .frameSync))

/-- R96, R97 point 4, R127: over every lawful configuration an error event of the assembler is `UnknownPayloadTypeError`,
`DecodingLengthError` or `ChecksumMismatchError`: never `FrameTruncatedError`, `EncodingRangeError` or `FrameSyncError`. -/
def Obligations.AssemblerErrorEvents : Prop :=
  ∀ (π : Type) (c : Config π) (abuf D : Bytes) (name : ErrorName) (info : Word), c.Lawful →
    .error name info ∈ (asmFeed c abuf D).1 →
    name = .unknownPayloadType ∨ (name = .decodingLength ∧ info = 0#16) ∨ (name = .checksumMismatch ∧ info = 0#16)

/-- R100: there are at most as many events as bytes in the buffer after the append, and bytes leave only from the front
(R13): what is left is a tail of it. -/
def Obligations.DrainIsBoundedByTheBuffer : Prop :=
  ∀ (π : Type) (c : Config π) (abuf D : Bytes),
    (asmFeed c abuf D).1.length ≤ (abuf ++ D).length ∧ (asmFeed c abuf D).2 <:+ abuf ++ D

/-- R101: the quiescent form. After every `ASM.FEED`, from any buffer, `abuf` has one of the four forms; such a buffer is
shorter than `MAX_FRAME`, so that a build that takes one byte at a time needs room for `MAX_FRAME` bytes and no more, and a
finite `abuf` of a build of this spec never overflows. -/
def Obligations.FeedLeavesAQuiescentBuffer : Prop :=
  ∀ (π : Type) (c : Config π), c.Lawful →
    Quiescent c [] ∧
    (∀ abuf D : Bytes, Quiescent c (asmFeed c abuf D).2) ∧
    ∀ buf : Bytes, Quiescent c buf → buf.length < c.maxFrame ∧
      ∀ b : Byte, (buf ++ [b]).length ≤ c.maxFrame ∧ ∀ cap, c.asmBufCap = some cap → (buf ++ [b]).length ≤ cap

/-- R102: chunking does not matter, for every configuration and from any buffer. -/
def Obligations.ChunkingDoesNotMatter : Prop :=
  ∀ (π : Type) (c : Config π) (abuf D1 D2 : Bytes),
    asmFeed c abuf (D1 ++ D2) =
      ((asmFeed c abuf D1).1 ++ (asmFeed c (asmFeed c abuf D1).2 D2).1, (asmFeed c (asmFeed c abuf D1).2 D2).2)

/-- R55: `ASM.PUSH` of each byte of `D` gives the events and the `abuf` of `ASM.FEED D`, from a buffer in one of the forms it
has between operations. -/
def Obligations.PushingBytesEqualsFeeding : Prop :=
  ∀ (D : Bytes) (s : State), QuiescentState s →
    ∃ t cs, runOps (D.flatMap Pseudo.asmPush) s = .next (t, cs) ∧
      t.abuf = (asmFeed Config.hw s.abuf D).2 ∧ t.crcr = s.crcr ∧ eventsOf cs = (asmFeed Config.hw s.abuf D).1

/-- R104: end to end. From an empty buffer the frame of an in-range record gives exactly one event, its payload, and leaves
`abuf` empty; fed in any pieces, the event comes with the last piece and every earlier piece gives none. -/
def Obligations.EndToEnd : Prop :=
  ∀ (r : Record) (F : Bytes) (s : State), r.inRange = true → s.abuf = [] →
    frameEncode Config.hw tlmEntry (.telemetry r) = .ok F →
    exec (.asmFeed F) s = .next { s with completion := completed (.events [.payload (.telemetry r)]) } ∧
    ∀ (pieces : List Bytes) (last : Bytes), pieces.flatten ++ last = F → last ≠ [] →
      ∃ t cs, runOps ((pieces ++ [last]).map .asmFeed) s = .next (t, cs) ∧ t.abuf = [] ∧ t.crcr = s.crcr ∧
        cs = List.replicate pieces.length ⟨.ok, 0#16, .events []⟩ ++ [⟨.ok, 0#16, .events [.payload (.telemetry r)]⟩]

/-- R98 corner cases 3 and 4: noise without a sync pair is dropped without an event and the frames after it are found, in
stream order. -/
def Obligations.NoiseIsDroppedAndFramesAreFound : Prop :=
  ∀ (noise : Bytes) (frames : List (Record × Bytes)), noSyncPair noise = true →
    (∀ x ∈ frames, x.1.inRange = true ∧ frameEncode Config.hw tlmEntry (.telemetry x.1) = .ok x.2) → frames ≠ [] →
    asmFeed Config.hw [] (noise ++ (frames.map (·.2)).flatten) = (frames.map fun x => .payload (.telemetry x.1), [])

/-- R97, R98 corner case 5: after a corrupted frame is given up, the scan goes through its remaining bytes; when they hold no
sync pair, the good frame behind them is found by the same operation, after the one error event. -/
def Obligations.GoodFrameAfterCorruptedFrameIsFound : Prop :=
  ∀ (bad F : Bytes) (r : Record), bad.length = 32 → frameDecode Config.hw bad = .error ⟨.checksumMismatch, 0#16⟩ →
    noSyncPair (bad.drop 1) = true → r.inRange = true → frameEncode Config.hw tlmEntry (.telemetry r) = .ok F →
    asmFeed Config.hw [] (bad ++ F) = ([.error .checksumMismatch 0#16, .payload (.telemetry r)], [])

/-! ### The whole machine -/

/-- The invariant of R101 holds at reset. -/
def Obligations.ResetIsQuiescent : Prop := QuiescentState State.reset

/-- R101, R13: every step keeps the invariant, from every state that has it. -/
def Obligations.EveryStepKeepsTheBufferQuiescent : Prop :=
  ∀ s t : State, QuiescentState s → step s = .next t → QuiescentState t

/-- R118, R121, R141: every operation, in every state and on every operand, completes: it returns one completion, and takes
nothing of what is still to be presented (log entry 4). -/
def Obligations.EveryOperationCompletes : Prop :=
  ∀ (i : Instr) (s : State), ∃ t c, exec i s = .next t ∧ t.completion = some c ∧ t.inputs = s.inputs

/-- R127: which operation can end with which status. The list of `TELEMETRY` is no part of R127: it is this model's own choice
(log entry 3, DESIGN CHOICE). -/
def Obligations.StatusesOfEachOperation : Prop :=
  ∀ (i : Instr) (s t : State) (c : Completion), exec i s = .next t → t.completion = some c → c.status ∈ i.mayEndWith

/-- R118: errors are precise. An operation that ends with an error returns no result and leaves `abuf`, `CRCR` and everything
else as they were. -/
def Obligations.ErrorsLeaveTheStateAsItWas : Prop :=
  ∀ (i : Instr) (s t : State) (c : Completion), exec i s = .next t → t.completion = some c → c.status ≠ .ok →
    c.result = .none ∧ t = { s with completion := some c }

/-- R11, R13, R14, the frame of every instruction: only `CRC.INIT` and `CRC.BYTE` change `CRCR`, only `ASM.FEED` and `ASM.CLR`
change `abuf`, and none changes what is still to be presented (log entry 4). -/
def Obligations.OnlyTheNamedOperationsWriteState : Prop :=
  ∀ (i : Instr) (s t : State), exec i s = .next t →
    (i.writesCrcr = false → t.crcr = s.crcr) ∧ (i.writesAbuf = false → t.abuf = s.abuf) ∧ t.inputs = s.inputs

/-- R14, R30, R65, R80: an operation that reads no state completes the same in every state; no other operation than those of
the streaming port reads `CRCR`, and the streaming port does not read `abuf`. -/
def Obligations.CompletionsDependOnWhatIsRead : Prop :=
  ∀ (i : Instr) (s s' t t' : State), exec i s = .next t → exec i s' = .next t' →
    (i.readsNoState = true → t.completion = t'.completion) ∧
    (s.abuf = s'.abuf → i ≠ .crcRead → t.completion = t'.completion ∧ t.abuf = t'.abuf) ∧
    (s.crcr = s'.crcr → (∀ D, i ≠ .asmFeed D) → t.completion = t'.completion ∧ t.crcr = t'.crcr)

/-- R21, R37: two instances share no state: a step of one leaves the other as it is, and steps of different instances
commute (one instance a step: log entry 14). -/
def Obligations.StepsOfDifferentInstancesCommute : Prop :=
  ∀ (n : Nat) (k l : Fin n) (sys u v : System n), k ≠ l → stepAt k sys = .next u → stepAt l u = .next v →
    u[l] = sys[l] ∧ ∃ u', stepAt l sys = .next u' ∧ stepAt k u' = .next v

/-- R10, D17: an operation's operand is an argument and its result a return value. What an instruction does is the function
`operate` of its operand and of the `Block`, and returns its completion and the block it leaves; at the port the completion
is handed over and what is still to be presented stays (the requester's side of the port in the state: log entry 4). -/
def Obligations.ExecIsTheOperationOnTheBlock : Prop :=
  ∀ (i : Instr) (s : State), exec i s =
    .next { abuf := (operate i s.toBlock).block.abuf, crcr := (operate i s.toBlock).block.crcr,
            inputs := s.inputs, completion := some (operate i s.toBlock).completion }

/-- R11: nothing but `abuf` and `CRCR` survives from one operation to the next. A program run on two instances whose blocks
are equal returns the same completions and leaves equal blocks, whatever else the two states hold. -/
def Obligations.NothingButTheBlockSurvives : Prop :=
  ∀ (prog : List Instr) (s s' t : State) (cs : List Completion), s.toBlock = s'.toBlock → runOps prog s = .next (t, cs) →
    ∃ t', runOps prog s' = .next (t', cs) ∧ t'.toBlock = t.toBlock

/-- R7, column 'value here': every parameter of this hardware, in its field. The CRC parameters are log entry 1, `LEN_CHECK`
is log entry 6 (both UNVERIFIED). -/
def Obligations.ParametersOfThisHardware : Prop :=
  Config.hw.crcWidth = 16 ∧
  Config.hw.crc = { poly := 0x1021, init := 0x0000, refin := false, refout := false, xorout := 0x0000 } ∧
  Config.hw.lenCheck = .strict ∧
  (∃ e, Config.hw.registry = [e] ∧ e.cls = 0x05 ∧ e.id = 0x03 ∧ e.explen = 24 ∧
    (∀ P, e.dec P = (tlmDecode P).map .telemetry) ∧ ∀ r, e.enc (.telemetry r) = tlmEncode r) ∧
  Config.hw.asmBufCap = none ∧ Config.hw.fieldPortW = none ∧ ∀ n, Config.hw.admits n = true
end

