-- ==== Sys2Proof/Laws/Framer.lean ====
section
/-! SUPPORT. What `frame_decode` can do, said once: its checks on a written-out header, the size of what it accepts, and
that bytes arriving later change no decision already taken. -/

namespace Sys2Proof.Machine
variable {π : Type}

/-- `frame_decode` on a buffer that has a header, its six bytes and what follows them written out. -/
theorem frameDecode_header (c : Config π) (b0 b1 b2 b3 b4 b5 : Byte) (body : Bytes) :
    frameDecode c (b0 :: b1 :: b2 :: b3 :: b4 :: b5 :: body) =
      if b0 ≠ sync1 ∨ b1 ≠ sync2 then .error ⟨.frameSync, 0#16⟩
      else
        match c.lookup b2 b3 with
        | none => .error ⟨.unknownPayloadType, kindInfo b2 b3⟩
        | some e =>
          if c.lenCheck = .strict ∧ b4.toNat * 256 + b5.toNat ≠ e.explen then .error ⟨.decodingLength, 0#16⟩
          else if body.length < b4.toNat * 256 + b5.toNat + 2 then .error ⟨.frameTruncated, 0#16⟩
          else if (crc16 c.crc (b0 :: b1 :: b2 :: b3 :: b4 :: b5 :: body.take (b4.toNat * 256 + b5.toNat))).toNat ≠
              beNat ((body.drop (b4.toNat * 256 + b5.toNat)).take 2) then .error ⟨.checksumMismatch, 0#16⟩
          else
            match e.dec (body.take (b4.toNat * 256 + b5.toNat)) with
            | .error x => .error x
            | .ok p => .ok (p, 8 + (b4.toNat * 256 + b5.toNat)) := by
  obtain ⟨N, hN⟩ : ∃ N, b4.toNat * 256 + b5.toNat = N := ⟨_, rfl⟩
  have e0 : ∀ h, memRead (b0 :: b1 :: b2 :: b3 :: b4 :: b5 :: body) 4 2 h = N := by
    intro h; rw [← hN]; simp [memRead, beNat]
  have e1 : ((b0 :: b1 :: b2 :: b3 :: b4 :: b5 :: body).length < 8 + N) = (body.length < N + 2) := by
    simp only [List.length_cons, eq_iff_iff]; omega
  have e2 : ∀ h, slice (b0 :: b1 :: b2 :: b3 :: b4 :: b5 :: body) 0 (hdrLen + N) h
      = b0 :: b1 :: b2 :: b3 :: b4 :: b5 :: body.take N := by
    intro h; simp [slice, hdrLen, Nat.add_comm 6 N]
  have e3 : ∀ h, slice (b0 :: b1 :: b2 :: b3 :: b4 :: b5 :: body) hdrLen (hdrLen + N) h = body.take N := by
    intro h; simp [slice, hdrLen, Nat.add_comm 6 N]
  have e4 : ∀ h, memRead (b0 :: b1 :: b2 :: b3 :: b4 :: b5 :: body) (hdrLen + N) cksLen h = beNat ((body.drop N).take 2) := by
    intro h; simp [memRead, hdrLen, cksLen, Nat.add_comm 6 N]
  have e5 : hdrLen + N + cksLen = 8 + N := by simp only [hdrLen, cksLen]; omega
  have h0 : ¬ (b0 :: b1 :: b2 :: b3 :: b4 :: b5 :: body).length < hdrLen := by simp [hdrLen]
  unfold frameDecode
  rw [dif_neg h0]
  simp only [e0, List.getElem_cons_zero, List.getElem_cons_succ, e1, e2, e3, e4, e5, hN, dite_eq_ite]
    <;> rfl

/-- A buffer of at least six bytes, its header written out. -/
theorem header_of_length {B : Bytes} (h : 6 ≤ B.length) :
    ∃ b0 b1 b2 b3 b4 b5 body, B = b0 :: b1 :: b2 :: b3 :: b4 :: b5 :: body := by
  obtain _ | ⟨b0, _ | ⟨b1, _ | ⟨b2, _ | ⟨b3, _ | ⟨b4, _ | ⟨b5, body⟩⟩⟩⟩⟩⟩ := B <;> simp at h
  exact ⟨_, _, _, _, _, _, _, rfl⟩

/-- Check (a): a buffer too short for a header. -/
theorem frameDecode_short (c : Config π) {B : Bytes} (h : B.length < 6) : frameDecode c B = .error ⟨.frameTruncated, 0#16⟩ := by
  have h' : B.length < hdrLen := h
  unfold frameDecode
  rw [dif_pos h']

/-- A frame that is accepted has a header, is all in the buffer, and its size is the count of bytes consumed. -/
theorem frameDecode_ok_size {c : Config π} {B : Bytes} {p : π} {n : Nat} (h : frameDecode c B = .ok (p, n)) :
    6 ≤ B.length ∧ 8 ≤ n ∧ n ≤ B.length := by
  by_cases h6 : 6 ≤ B.length
  · obtain ⟨b0, b1, b2, b3, b4, b5, body, rfl⟩ := header_of_length h6
    rw [frameDecode_header] at h
    repeat' split at h
    all_goals cases h
    simp only [List.length_cons]
    omega
  · rw [frameDecode_short c (by omega)] at h
    cases h

/-- Bytes that arrive later do not change a decision already taken (43_assembler.md R102). -/
theorem frameDecode_append {c : Config π} {B : Bytes} (X : Bytes) (h : frameDecode c B ≠ .error ⟨.frameTruncated, 0#16⟩) :
    frameDecode c (B ++ X) = frameDecode c B := by
  by_cases h6 : 6 ≤ B.length
  · obtain ⟨b0, b1, b2, b3, b4, b5, body, rfl⟩ := header_of_length h6
    simp only [List.cons_append]
    rw [frameDecode_header] at h ⊢
    rw [frameDecode_header]
    obtain ⟨N, hN⟩ : ∃ N, b4.toNat * 256 + b5.toNat = N := ⟨_, rfl⟩
    simp only [hN] at h ⊢
    by_cases hb : body.length < N + 2
    · simp only [hb, if_true] at h ⊢
      split at h <;> split <;> try contradiction
      · rfl
      · split at h <;> simp_all
    · rw [List.take_append_of_le_length (by omega), List.drop_append_of_le_length (by omega),
        List.take_append_of_le_length (by simp only [List.length_drop]; omega)]
      have : ¬ (body ++ X).length < N + 2 := by simp only [List.length_append]; omega
      simp only [hb, this]
  · exact absurd (frameDecode_short c (by omega)) h

end Sys2Proof.Machine
end

