-- ==== Sys2Proof/Laws/Assembler.lean ====
section
/-! SUPPORT. What one pass of the assembler can decide and what the drain loop does with each decision. -/

namespace Sys2Proof.Machine
variable {π : Type}

/-- Nothing can be decided on an empty buffer. -/
theorem asmPass_nil (c : Config π) : asmPass c [] = .wait := by simp [asmPass, hdrLen]

/-- A payload is emitted only with its whole frame in the buffer. -/
theorem asmPass_emit_size {c : Config π} {buf : Bytes} {p : π} {n : Nat} (h : asmPass c buf = .emit p n) :
    8 ≤ n ∧ n ≤ buf.length := by
  unfold asmPass at h
  split at h <;> [cases h; skip]
  split at h <;> [cases h; skip]
  split at h <;> [cases h; skip]
  split at h
  · next hd => cases h; exact (frameDecode_ok_size hd).2
  · split at h <;> cases h

/-- A pass that decides anything but to wait decides the same when more bytes have arrived. -/
theorem asmPass_append {c : Config π} {buf : Bytes} (X : Bytes) (h : asmPass c buf ≠ .wait) :
    asmPass c (buf ++ X) = asmPass c buf := by
  unfold asmPass at h ⊢
  have h0 : ∀ k, k < buf.length → (buf ++ X)[k]? = buf[k]? := fun k hk => List.getElem?_append_left hk
  by_cases h6 : buf.length < hdrLen
  · rw [if_pos h6] at h ⊢
    by_cases c1 : 1 ≤ buf.length ∧ buf[0]? ≠ some sync1
    · have c1' : 1 ≤ (buf ++ X).length ∧ (buf ++ X)[0]? ≠ some sync1 := by
        rw [h0 0 (by omega)]; simp only [List.length_append]; exact ⟨by omega, c1.2⟩
      rw [if_pos c1, if_pos c1']
    · by_cases c2 : 2 ≤ buf.length ∧ buf[1]? ≠ some sync2
      · have c1' : ¬ (1 ≤ (buf ++ X).length ∧ (buf ++ X)[0]? ≠ some sync1) := by
          rw [h0 0 (by omega)]; intro hc; exact c1 ⟨by omega, hc.2⟩
        have c2' : 2 ≤ (buf ++ X).length ∧ (buf ++ X)[1]? ≠ some sync2 := by
          rw [h0 1 (by omega)]; simp only [List.length_append]; exact ⟨by omega, c2.2⟩
        rw [if_neg c1, if_neg c1', if_pos c2, if_pos c2']
      · rw [if_neg c1, if_neg c2] at h; exact absurd rfl h
  · have h6' : 6 ≤ buf.length := Nat.le_of_not_lt h6
    have h6'' : ¬ (buf ++ X).length < hdrLen := by simp only [List.length_append, hdrLen]; omega
    rw [if_neg h6] at h
    rw [if_neg h6, if_neg h6'', h0 0 (by omega), h0 1 (by omega)]
    have l1 : (1 ≤ (buf ++ X).length) = (1 ≤ buf.length) := by simp only [List.length_append, eq_iff_iff]; omega
    have l2 : (2 ≤ (buf ++ X).length) = (2 ≤ buf.length) := by simp only [List.length_append, eq_iff_iff]; omega
    simp only [l1, l2]
    split
    · rfl
    · split
      · rfl
      · next n1 n2 =>
        rw [if_neg n1, if_neg n2] at h
        rw [frameDecode_append X]
        intro hc
        rw [hc] at h
        exact h rfl

/-- Skipping is dropping: `abuf <- drop(abuf, k)` (43_assembler.md R97). -/
theorem asmLoop_skip (c : Config π) : ∀ (buf : Bytes) (k : Nat), asmLoop c buf k = asmDrain c (buf.drop k)
  | [], k => by simp [asmLoop, asmDrain]
  | _ :: _, 0 => rfl
  | _ :: t, k + 1 => by simpa [asmLoop] using asmLoop_skip c t k

/-- What is left in the buffer is a buffer on which the loop exits. -/
theorem asmLoop_residue (c : Config π) : ∀ (buf : Bytes) (k : Nat), asmPass c (asmLoop c buf k).2 = .wait
  | [], _ => by simp [asmLoop, asmPass_nil]
  | _ :: t, k + 1 => by simpa [asmLoop] using asmLoop_residue c t k
  | b :: t, 0 => by
    cases hp : asmPass c (b :: t) with
    | wait => simp [asmLoop, hp]
    | discard => simpa [asmLoop, hp] using asmLoop_residue c t 0
    | drop e => simpa [asmLoop, hp] using asmLoop_residue c t 0
    | emit p n => simpa [asmLoop, hp] using asmLoop_residue c t (n - 1)

/-- A buffer on which the loop exits is left as it is, without an event. -/
theorem asmDrain_wait {c : Config π} {buf : Bytes} (h : asmPass c buf = .wait) : asmDrain c buf = ([], buf) := by
  cases buf with
  | nil => rfl
  | cons b t => simp [asmDrain, asmLoop, h]

/-- The scan discards a leading byte without an event. -/
theorem asmDrain_discard {c : Config π} {b : Byte} {t : Bytes} (h : asmPass c (b :: t) = .discard) :
    asmDrain c (b :: t) = asmDrain c t := by simp [asmDrain, asmLoop, h]

/-- A decode error is one event and costs one byte. -/
theorem asmDrain_drop {c : Config π} {b : Byte} {t : Bytes} {e : Raised} (h : asmPass c (b :: t) = .drop e) :
    asmDrain c (b :: t) = (.error e.name e.info :: (asmDrain c t).1, (asmDrain c t).2) := by simp [asmDrain, asmLoop, h]

/-- A frame that passes is one event and its bytes leave the buffer. -/
theorem asmDrain_emit {c : Config π} {buf : Bytes} {p : π} {n : Nat} (h : asmPass c buf = .emit p n) :
    asmDrain c buf = (.payload p :: (asmDrain c (buf.drop n)).1, (asmDrain c (buf.drop n)).2) := by
  have hs := asmPass_emit_size h
  cases buf with
  | nil => simp at hs; omega
  | cons b t =>
    simp only [asmDrain, asmLoop, h]
    rw [asmLoop_skip]
    obtain ⟨m, rfl⟩ := Nat.exists_eq_add_of_le (show 1 ≤ n by omega)
    simp [asmDrain, Nat.add_comm 1 m]

end Sys2Proof.Machine
end

