-- ==== Sys2Proof/Laws/Codec.lean ====
section
/-! SUPPORT. What the payload encoder does, said once: the first row of the layout out of range decides the error, and
without one all eight fields are written; and the ranges of R43 are those of the layout. -/

namespace Sys2Proof.Machine

/-- Whether the record's field of a layout row is in range. -/
def LayoutRow.inRange (r : Record) (row : LayoutRow) : Bool := fieldInRange row.signed row.size (row.field.get r)

/-- The bytes with the record's field of a layout row written. -/
def LayoutRow.write (r : Record) (P : Bytes) (row : LayoutRow) : Bytes :=
  memWrite P row.offset row.size (fieldToNat row.signed row.size (row.field.get r))

/-- Encoding the rows: the first row whose field is out of range decides the error, and without one all are written. -/
theorem encodeRows_eq (r : Record) : ∀ (rows : List LayoutRow) (P : Bytes),
    encodeRows r rows P =
      match rows.find? (fun row => !row.inRange r) with
      | some row => .error ⟨.encodingRange, BitVec.ofNat 16 row.index⟩
      | none => .ok (rows.foldl (LayoutRow.write r) P)
  | [], P => rfl
  | row :: rows, P => by
    have ih := encodeRows_eq r rows (row.write r P)
    simp only [encodeRows, List.find?, LayoutRow.inRange, List.foldl_cons] at *
    cases h : fieldInRange row.signed row.size (row.field.get r)
    · simp
    · simpa [h, LayoutRow.write] using ih

/-- The ranges of R43 are those of the layout's widths. -/
theorem rangeChecks_eq (r : Record) : r.rangeChecks = tlmLayout.map fun row => (row.index, row.inRange r) := by
  simp only [Record.rangeChecks, tlmLayout, List.map_cons, List.map_nil, LayoutRow.inRange, fieldInRange, Field.get,
    Bool.false_eq_true, if_false, if_true]
  norm_num

/-- A record with a field out of range: the error names the first one (40_payload_codec.md R61). -/
theorem tlmEncode_error {r : Record} {i : Nat} (h : r.firstOutOfRange = some i) : tlmEncode r = .error ⟨.encodingRange, BitVec.ofNat 16 i⟩ := by
  rw [Record.firstOutOfRange, rangeChecks_eq, List.find?_map] at h
  rw [tlmEncode, encodeRows_eq]
  simp only [Function.comp_def, Option.map_map] at h
  obtain ⟨row, hr, hi⟩ := Option.map_eq_some_iff.1 h
  rw [hr]; exact congrArg (fun k => Except.error (⟨.encodingRange, BitVec.ofNat 16 k⟩ : Raised)) hi

/-- An in-range record is encoded by writing its eight fields. -/
theorem tlmEncode_inRange {r : Record} (h : r.inRange = true) : tlmEncode r = .ok (tlmLayout.foldl (LayoutRow.write r) (List.replicate tlmLen 0#8)) := by
  have h : r.firstOutOfRange = none := by simpa [Record.inRange, Record.firstOutOfRange] using h
  rw [Record.firstOutOfRange, rangeChecks_eq, List.find?_map] at h
  rw [tlmEncode, encodeRows_eq]
  simp only [Function.comp_def, Option.map_map, Option.map_eq_none_iff] at h
  rw [h]

/-- Writing fields keeps the 24 bytes. -/
theorem writeRows_length (r : Record) : ∀ (rows : List LayoutRow) (P : Bytes), P.length = tlmLen →
    (rows.foldl (LayoutRow.write r) P).length = tlmLen
  | [], _, h => h
  | row :: rows, P, h => writeRows_length r rows _ (by
      rw [LayoutRow.write, memWrite_length _ _ _ _ (by rw [h]; exact row.fits), h])

end Sys2Proof.Machine
end

