-- ==== Sys2Proof/Laws/Crc.lean ====
section
/-! SUPPORT. The algebra of the CRC register (41_crc16.md R72, R74) for every parameter set: linearity, and that a polynomial
with its lowest bit set loses nothing. -/

namespace Sys2Proof.Machine

variable (p : CrcParams)

/-- Shifting is linear over xor (41_crc16.md R72). -/
theorem crcShift_xor (x y : Word) : crcShift p (x ^^^ y) = crcShift p x ^^^ crcShift p y := by
  unfold crcShift
  rw [BitVec.getLsbD_xor, BitVec.shiftLeft_xor_distrib]
  cases x.getLsbD 15 <;> cases y.getLsbD 15 <;> simp
  · ac_rfl
  · ac_rfl
  · rw [BitVec.xor_assoc, ← BitVec.xor_assoc p.poly, BitVec.xor_comm p.poly, BitVec.xor_assoc (y <<< 1), BitVec.xor_self,
      BitVec.xor_zero]

/-- So are several shifts. -/
theorem crcShifts_xor : ∀ (n : Nat) (x y : Word), crcShifts p n (x ^^^ y) = crcShifts p n x ^^^ crcShifts p n y
  | 0, _, _ => rfl
  | n + 1, x, y => by simp only [crcShifts, crcShift_xor, crcShifts_xor n]

/-- A register of zeros stays zero. -/
theorem crcShifts_zero : ∀ n : Nat, crcShifts p n 0#16 = 0#16
  | 0 => rfl
  | n + 1 => by
    have : crcShift p 0#16 = 0#16 := by simp [crcShift]
    rw [crcShifts, this, crcShifts_zero n]

/-- The register after one byte is the shifted register xor the shifted byte. -/
theorem crcStep_xor (c : Word) (b : Byte) : crcStep p c b = crcShifts p 8 c ^^^ crcStep p 0#16 b := by
  simp [crcStep, crcShifts_xor]

/-- Taking a byte is linear over xor. -/
theorem crcStep_xor_xor (c c' : Word) (b b' : Byte) :
    crcStep p (c ^^^ c') (b ^^^ b') = crcStep p c b ^^^ crcStep p c' b' := by
  have hr : (b ^^^ b').reverse = b.reverse ^^^ b'.reverse := by
    ext i hi; simp [BitVec.getElem_reverse]
  unfold crcStep
  rw [← crcShifts_xor]
  cases p.refin <;> simp [hr, BitVec.setWidth_xor, BitVec.shiftLeft_xor_distrib] <;> ac_rfl

@[simp] theorem crcRun_nil (c : Word) : crcRun p c [] = c := rfl
@[simp] theorem crcRun_cons (c : Word) (b : Byte) (t : Bytes) : crcRun p c (b :: t) = crcRun p (crcStep p c b) t := rfl
/-- Taking two sequences one after the other. -/
theorem crcRun_append (c : Word) (A B : Bytes) : crcRun p c (A ++ B) = crcRun p (crcRun p c A) B := List.foldl_append ..

/-- A polynomial with its lowest bit set makes every shift undoable: two registers stay different. -/
theorem crcShift_injective (hp : p.poly.getLsbD 0 = true) {x y : Word} (h : crcShift p x = crcShift p y) : x = y := by
  have hx : ∀ z : Word, (z <<< 1).getLsbD 0 = false := by intro z; simp
  have key : ∀ z : Word, (crcShift p z).getLsbD 0 = z.getLsbD 15 := by
    intro z; unfold crcShift; split <;> simp_all
  have h15 : x.getLsbD 15 = y.getLsbD 15 := by rw [← key x, ← key y, h]
  have hs : x <<< 1 = y <<< 1 := by
    unfold crcShift at h
    rw [h15] at h
    split at h
    · exact (BitVec.xor_left_inj p.poly).1 h
    · exact h
  apply BitVec.eq_of_getLsbD_eq
  intro i hi
  by_cases h1 : i = 15
  · subst h1; exact h15
  · have := congrArg (fun z => z.getLsbD (i + 1)) hs
    simpa [show i + 1 < 16 by omega, ← BitVec.getLsbD_eq_getElem] using this

/-- Several shifts can be undone. -/
theorem crcShifts_injective (hp : p.poly.getLsbD 0 = true) : ∀ (n : Nat) {x y : Word}, crcShifts p n x = crcShifts p n y → x = y
  | 0, _, _, h => h
  | n + 1, _, _, h => crcShift_injective p hp (crcShifts_injective hp n h)

/-- Two registers stay different after the same byte. -/
theorem crcStep_register_injective (hp : p.poly.getLsbD 0 = true) {c c' : Word} {b : Byte} (h : crcStep p c b = crcStep p c' b) : c = c' := by
  have := crcShifts_injective p hp 8 h
  exact (BitVec.xor_left_inj _).1 this

/-- Two registers stay different after the same bytes. -/
theorem crcRun_register_injective (hp : p.poly.getLsbD 0 = true) : ∀ (B : Bytes) {c c' : Word}, crcRun p c B = crcRun p c' B → c = c'
  | [], _, _, h => h
  | _ :: t, _, _, h => crcStep_register_injective p hp (crcRun_register_injective hp t h)

/-- Two bytes leave different registers. -/
theorem crcStep_byte_injective (hp : p.poly.getLsbD 0 = true) {c : Word} {b b' : Byte} (h : crcStep p c b = crcStep p c b') : b = b' := by
  have h1 := (BitVec.xor_right_inj _).1 (crcShifts_injective p hp 8 h)
  have h2 : (if p.refin then b.reverse else b) = (if p.refin then b'.reverse else b') := by
    apply BitVec.eq_of_getLsbD_eq
    intro i hi
    have := congrArg (fun z => z.getLsbD (i + 8)) h1
    simpa [show i + 8 < 16 by omega, show i < 16 by omega] using this
  split at h2
  · rw [← BitVec.reverse_reverse_eq (x := b), h2, BitVec.reverse_reverse_eq]
  · exact h2

/-- A register whose upper bits are clear is only moved up. -/
theorem crcShifts_low : ∀ (n : Nat) (x : Word), x.toNat * 2 ^ n < 65536 → crcShifts p n x = x <<< n
  | 0, x, _ => by simp [crcShifts]
  | n + 1, x, h => by
    have h2 : x.toNat * 2 * 2 ^ n < 65536 := by rw [Nat.pow_succ] at h; rw [Nat.mul_assoc, Nat.mul_comm 2]; exact h
    have h3 : x.toNat * 2 < 65536 := Nat.lt_of_le_of_lt (Nat.le_mul_of_pos_right _ (Nat.pow_pos (by decide))) h2
    have h15 : x.getLsbD 15 = false := by
      rw [BitVec.getLsbD, Nat.testBit_lt_two_pow (by omega)]
    have hs : (x <<< 1).toNat = x.toNat * 2 := by
      rw [BitVec.toNat_shiftLeft, Nat.shiftLeft_eq, Nat.pow_one]; exact Nat.mod_eq_of_lt h3
    rw [crcShifts, crcShift, h15]
    simp only [Bool.false_eq_true, if_false]
    rw [crcShifts_low n _ (by rw [hs]; exact h2), ← BitVec.shiftLeft_add, Nat.add_comm]

end Sys2Proof.Machine
end

