-- ==== Sys2Proof/Laws/Decode.lean ====
section
/-! SUPPORT. The laws of the request format: integers and records are read back and are carried in one way only, and the
table of `op` codes reads the same in both directions. -/

namespace Sys2Proof
open Sys2Proof.Machine

/-- The signed integer and the natural number it is carried as stand for each other. -/
theorem unzigzag_zigzag (v : Int) : unzigzag (zigzag v) = v := by
  unfold unzigzag zigzag
  split <;> split <;> omega

theorem zigzag_unzigzag (n : Nat) : zigzag (unzigzag n) = n := by
  unfold unzigzag zigzag
  split <;> split <;> omega

/-- A number of few enough groups is read back, whatever follows it. -/
theorem decodeNat_natBytes (fuel : Nat) : ∀ (n : Nat) (rest : Bytes), n < 128 ^ (fuel + 1) →
    decodeNat (natBytes fuel n ++ rest) = .ok (n, rest) := by
  induction fuel with
  | zero =>
    intro n rest h
    have h1 : n < 128 := by simpa using h
    have h2 : n % 256 = n := Nat.mod_eq_of_lt (by omega)
    simp [natBytes, decodeNat, h1, h2]
  | succ fuel ih =>
    intro n rest h
    unfold natBytes
    split
    · next h1 =>
      have h2 : n % 256 = n := Nat.mod_eq_of_lt (by omega)
      simp [decodeNat, h1, h2]
    · next h1 =>
      have h2 : (128 + n % 128) % 256 = 128 + n % 128 := Nat.mod_eq_of_lt (by omega)
      have h3 : n / 128 < 128 ^ (fuel + 1) := by
        rw [Nat.div_lt_iff_lt_mul (by decide)]
        rwa [Nat.pow_succ] at h
      have h4 : ¬ (n / 128 = 0) := by omega
      have h5 : n % 128 + 128 * (n / 128) = n := Nat.mod_add_div n 128
      simp [decodeNat, h2, ih _ rest h3, h4, h5]

/-- An encoded natural number is read back, with whatever follows it. -/
theorem decodeNat_encodeNat (n : Nat) (rest : Bytes) : decodeNat (encodeNat n ++ rest) = .ok (n, rest) := by
  refine decodeNat_natBytes _ _ _ (Nat.lt_of_lt_of_le Nat.lt_log2_self ?_)
  exact Nat.pow_le_pow_left (by decide) _

/-- Enough fuel is as good as any. -/
theorem natBytes_fuel (f : Nat) : ∀ (g n : Nat), n < 128 ^ (f + 1) → n < 128 ^ (g + 1) → natBytes f n = natBytes g n := by
  induction f with
  | zero =>
    intro g n hf hg
    have : n < 128 := by simpa using hf
    cases g <;> simp [natBytes, this]
  | succ f ih =>
    intro g n hf hg
    cases g with
    | zero =>
      have : n < 128 := by simpa using hg
      simp [natBytes, this]
    | succ g =>
      unfold natBytes
      split
      · rfl
      · congr 1
        rw [Nat.pow_succ] at hf hg
        exact ih _ _ ((Nat.div_lt_iff_lt_mul (by decide)).2 hf) ((Nat.div_lt_iff_lt_mul (by decide)).2 hg)

/-- A natural number is carried in one way only. -/
theorem encodeNat_decodeNat : ∀ (B : Bytes) (n : Nat) (rest : Bytes), decodeNat B = .ok (n, rest) → encodeNat n ++ rest = B := by
  intro B
  induction B with
  | nil => intro n rest h; simp [decodeNat] at h
  | cons b t ih =>
    intro n rest h
    unfold decodeNat at h
    split at h
    · next hb =>
      simp only [Except.ok.injEq, Prod.mk.injEq] at h
      obtain ⟨rfl, rfl⟩ := h
      have : encodeNat b.toNat = natBytes 0 b.toNat :=
        natBytes_fuel _ _ _ (Nat.lt_of_lt_of_le Nat.lt_log2_self (Nat.pow_le_pow_left (by decide) _)) (by simpa using hb)
      rw [this]
      simp [natBytes]
    · next hb =>
      split at h
      · cases h
      · next m rest' hm =>
        split at h
        · cases h
        · next hm0 =>
          simp only [Except.ok.injEq, Prod.mk.injEq] at h
          obtain ⟨rfl, rfl⟩ := h
          have hlt := b.isLt
          have hlog : m < 128 ^ (m.log2 + 1) := Nat.lt_of_lt_of_le Nat.lt_log2_self (Nat.pow_le_pow_left (by decide) _)
          have hn : b.toNat - 128 + 128 * m < 128 ^ (m.log2 + 1 + 1) := by
            rw [Nat.pow_succ]
            generalize 128 ^ (m.log2 + 1) = K at hlog ⊢
            omega
          have : encodeNat (b.toNat - 128 + 128 * m) = natBytes (m.log2 + 1) (b.toNat - 128 + 128 * m) :=
            natBytes_fuel _ _ _ (Nat.lt_of_lt_of_le Nat.lt_log2_self (Nat.pow_le_pow_left (by decide) _)) hn
          rw [this]
          unfold natBytes
          rw [if_neg (by omega)]
          have h1 : (b.toNat - 128 + 128 * m) % 128 = b.toNat - 128 := by omega
          have h2 : (b.toNat - 128 + 128 * m) / 128 = m := by omega
          have h3 : 128 + (b.toNat - 128) = b.toNat := by omega
          rw [h1, h2, h3, List.cons_append]
          rw [BitVec.ofNat_toNat, BitVec.setWidth_eq]
          exact congrArg _ (ih _ _ hm)

/-- An encoded integer is read back, with whatever follows it. -/
theorem decodeInt_encodeInt (v : Int) (rest : Bytes) : decodeInt (encodeInt v ++ rest) = .ok (v, rest) := by
  simp [decodeInt, encodeInt, decodeNat_encodeNat, unzigzag_zigzag]

theorem encodeInt_decodeInt {B : Bytes} {v : Int} {rest : Bytes} (h : decodeInt B = .ok (v, rest)) :
    encodeInt v ++ rest = B := by
  unfold decodeInt at h
  split at h
  · cases h
  · next n r hn =>
    simp only [Except.ok.injEq, Prod.mk.injEq] at h
    obtain ⟨rfl, rfl⟩ := h
    rw [encodeInt, zigzag_unzigzag]
    exact encodeNat_decodeNat _ _ _ hn

/-- A record operand is read back. -/
theorem decodeRecord_encodeRecord (r : Record) : decodeRecord (encodeRecord r) = .ok r := by
  have := decodeInt_encodeInt r.fixType []
  rw [List.append_nil] at this
  simp [decodeRecord, encodeRecord, decodeInt_encodeInt, this, bind, Except.bind]

/-- Both computations of a sequence that succeeds succeed. -/
theorem except_bind_ok {ε α β : Type} {x : Except ε α} {f : α → Except ε β} {r : β} (h : x >>= f = .ok r) :
    ∃ a, x = .ok a ∧ f a = .ok r := by
  cases x with
  | error e => cases h
  | ok a => exact ⟨a, rfl, h⟩

/-- A record operand is carried in one way only. -/
theorem encodeRecord_decodeRecord {B : Bytes} {r : Record} (h : decodeRecord B = .ok r) : encodeRecord r = B := by
  unfold decodeRecord at h
  obtain ⟨⟨v0, B0⟩, h0, h⟩ := except_bind_ok h
  obtain ⟨⟨v1, B1⟩, h1, h⟩ := except_bind_ok h
  obtain ⟨⟨v2, B2⟩, h2, h⟩ := except_bind_ok h
  obtain ⟨⟨v3, B3⟩, h3, h⟩ := except_bind_ok h
  obtain ⟨⟨v4, B4⟩, h4, h⟩ := except_bind_ok h
  obtain ⟨⟨v5, B5⟩, h5, h⟩ := except_bind_ok h
  obtain ⟨⟨v6, B6⟩, h6, h⟩ := except_bind_ok h
  obtain ⟨⟨v7, B7⟩, h7, h⟩ := except_bind_ok h
  dsimp only at h
  split at h
  · next he =>
    cases h
    rw [List.isEmpty_iff] at he
    subst he
    simp only [encodeRecord]
    rw [← encodeInt_decodeInt h0, ← encodeInt_decodeInt h1, ← encodeInt_decodeInt h2, ← encodeInt_decodeInt h3,
      ← encodeInt_decodeInt h4, ← encodeInt_decodeInt h5, ← encodeInt_decodeInt h6, ← encodeInt_decodeInt h7, List.append_nil]
  · cases h

/-- The table of R51 read in both directions. -/
theorem ofCode_code (op : Op) : Op.ofCode op.code = some op := by cases op <;> decide

theorem code_ofCode : ∀ {code : BitVec 4} {op : Op}, Op.ofCode code = some op → op.code = code := by decide

/-- The first byte of a request selects its operation. -/
theorem decode_request (op : Op) (operand : Bytes) : decode (op.request operand) = decodeOp op operand := by
  cases op <;> rfl
/-! ### Frame headers -/

/-- The value of two bit vectors side by side. -/
theorem toNat_append_mul {m n : Nat} (x : BitVec m) (y : BitVec n) : (x ++ y).toNat = x.toNat * 2 ^ n + y.toNat := by
  rw [BitVec.toNat_append, ← Nat.shiftLeft_add_eq_or_of_lt y.isLt, Nat.shiftLeft_eq]

/-- The header word as its three 16-bit parts: the sync bytes, the kind and the length (30_encoding.md R41). -/
theorem headerWord_cons (b0 b1 b2 b3 b4 b5 : Byte) (body : Bytes) :
    headerWord (b0 :: b1 :: b2 :: b3 :: b4 :: b5 :: body) = (b0 ++ b1) ++ ((b2 ++ b3) ++ (b4 ++ b5)) := by
  apply BitVec.eq_of_toNat_eq
  have h0 := b0.isLt; have h1 := b1.isLt; have h2 := b2.isLt; have h3 := b3.isLt; have h4 := b4.isLt; have h5 := b5.isLt
  simp only [headerWord, List.take_succ_cons, List.take_zero, beNat, List.length_cons, List.length_nil, BitVec.toNat_ofNat,
    toNat_append_mul]
  omega
/-- The low and the high part of two bit vectors side by side. -/
theorem extractLsb'_append_low {m n : Nat} (x : BitVec m) (y : BitVec n) : (x ++ y).extractLsb' 0 n = y := by
  rw [BitVec.extractLsb'_append_eq_ite]
  split
  · simp
  · have : n = 0 := by omega
    subst this; exact Subsingleton.elim _ _

theorem extractLsb'_append_high {m n : Nat} (x : BitVec m) (y : BitVec n) : (x ++ y).extractLsb' n m = x := by
  rw [BitVec.extractLsb'_append_eq_of_le (Nat.le_refl _)]; simp

/-- The three parts of a header word. -/
theorem headerWord_sync (x y z : Word) : (x ++ (y ++ z) : BitVec 48).extractLsb' 32 16 = x := extractLsb'_append_high _ _

theorem headerKind_append (x y z : Word) : headerKind (x ++ (y ++ z) : BitVec 48) = y := by
  unfold headerKind
  rw [BitVec.extractLsb'_append_eq_ite, dif_pos (by decide), dif_pos (by decide)]
  exact extractLsb'_append_high _ _

theorem headerLength_append (x y z : Word) : headerLength (x ++ (y ++ z) : BitVec 48) = z := by
  unfold headerLength
  rw [BitVec.extractLsb'_append_eq_ite, dif_pos (by decide), dif_pos (by decide)]
  exact extractLsb'_append_low _ _

/-- The mask of the `TELEMETRY` row keeps the sync bytes and the kind. -/
theorem headerWord_masked (x y z : Word) : (x ++ (y ++ z) : BitVec 48) &&& 0xFFFFFFFF0000#48 = x ++ (y ++ 0#16) := by
  rw [show (0xFFFFFFFF0000#48 : BitVec 48) = 0xFFFF#16 ++ (0xFFFF#16 ++ 0#16) from by decide, BitVec.and_append, BitVec.and_append]
  congr 1
  · exact BitVec.and_allOnes
  · congr 1
    · exact BitVec.and_allOnes
    · simp

/-- Bit vectors side by side are equal when their parts are. -/
theorem append_inj {m n : Nat} {x x' : BitVec m} {y y' : BitVec n} : x ++ y = x' ++ y' ↔ x = x' ∧ y = y' := by
  refine ⟨fun h => ⟨?_, ?_⟩, fun ⟨h, h'⟩ => by rw [h, h']⟩
  · rw [← extractLsb'_append_high x y, h, extractLsb'_append_high]
  · rw [← extractLsb'_append_low x y, h, extractLsb'_append_low]

/-- The row of the table that a header word selects (R56). -/
theorem headerTable_find (x y z : Word) :
    (headerTable.find? fun row => row.pattern == ((x ++ (y ++ z) : BitVec 48) &&& row.mask)) =
      if x = 0xE4EB#16 ∧ y = 0x0503#16 then some ⟨.telemetry, 0xE4EB05030000#48, 0xFFFFFFFF0000#48⟩ else none := by
  have e : (0xE4EB05030000#48 = ((x ++ (y ++ z) : BitVec 48) &&& 0xFFFFFFFF0000#48)) ↔ x = 0xE4EB#16 ∧ y = 0x0503#16 := by
    rw [headerWord_masked, show (0xE4EB05030000#48 : BitVec 48) = 0xE4EB#16 ++ (0x0503#16 ++ 0#16) from by decide]
    rw [append_inj, append_inj]
    constructor
    · rintro ⟨h, h', -⟩; exact ⟨h.symm, h'.symm⟩
    · rintro ⟨h, h'⟩; exact ⟨h.symm, h'.symm, rfl⟩
  simp only [headerTable, List.find?]
  split
  · next h => rw [if_pos (e.1 (by simpa using h))]
  · next h => rw [if_neg (fun h' => by simp [e.2 h'] at h)]

/-- Decoding a candidate frame that has a header. -/
theorem decodeFrame_header (b0 b1 b2 b3 b4 b5 : Byte) (body : Bytes) :
    decodeFrame (b0 :: b1 :: b2 :: b3 :: b4 :: b5 :: body) =
      if ¬ (b0 = sync1 ∧ b1 = sync2) then .error (.raised ⟨.frameSync, 0#16⟩)
      else if ¬ (b2 = tlmClass ∧ b3 = tlmId) then .error (.raised ⟨.unknownPayloadType, b2 ++ b3⟩)
      else .ok (.telemetry (b4 ++ b5) body) := by
  have e1 : (b0 ++ b1 : BitVec (8 + 8)) = (0xE4EB#16 : BitVec 16) ↔ b0 = sync1 ∧ b1 = sync2 := by
    rw [show (0xE4EB#16 : BitVec 16) = sync1 ++ sync2 from by decide]; exact append_inj
  have e2 : (b2 ++ b3 : BitVec (8 + 8)) = (0x0503#16 : BitVec 16) ↔ b2 = tlmClass ∧ b3 = tlmId := by
    rw [show (0x0503#16 : BitVec 16) = tlmClass ++ tlmId from by decide]; exact append_inj
  unfold decodeFrame
  rw [if_neg (by simp)]
  simp only [headerWord_cons]
  by_cases h : b0 = sync1 ∧ b1 = sync2
  · rw [if_neg (by rw [headerWord_sync]; exact not_not.2 (e1.2 h)), if_neg (not_not.2 h), headerTable_find]
    by_cases h' : b2 = tlmClass ∧ b3 = tlmId
    · rw [if_pos ⟨e1.2 h, e2.2 h'⟩, if_neg (not_not.2 h'), headerLength_append]
      rfl
    · rw [if_neg (fun x => h' (e2.1 x.2)), if_pos h', headerKind_append]
  · rw [if_pos h, if_pos]
    rw [headerWord_sync]; exact fun x => h (e1.1 x)

end Sys2Proof
end

