-- ==== Sys2Proof/Laws/State.lean ====
section
/-! SUPPORT. One lemma per field per update of the block and of the state, so that no later proof unfolds a record update. -/

namespace Sys2Proof.Machine

@[simp] theorem readCrcr_eq (b : Block) : readCrcr b = b.crcr := rfl
@[simp] theorem readAbuf_eq (b : Block) : readAbuf b = b.abuf := rfl

@[simp] theorem writeCrcr_abuf (b : Block) (v : Word) : (writeCrcr b v).abuf = b.abuf := rfl
@[simp] theorem writeCrcr_crcr (b : Block) (v : Word) : (writeCrcr b v).crcr = v := rfl

@[simp] theorem writeAbuf_abuf (b : Block) (B : Bytes) : (writeAbuf b B).abuf = B := rfl
@[simp] theorem writeAbuf_crcr (b : Block) (B : Bytes) : (writeAbuf b B).crcr = b.crcr := rfl

@[simp] theorem completeOk_block (b : Block) (r : Result) : (completeOk b r).block = b := rfl
@[simp] theorem completeOk_completion (b : Block) (r : Result) : (completeOk b r).completion = ⟨.ok, 0#16, r⟩ := rfl

@[simp] theorem raiseError_block (b : Block) (e : Raised) : (raiseError b e).block = b := rfl
@[simp] theorem raiseError_completion (b : Block) (e : Raised) :
    (raiseError b e).completion = ⟨errorStatus e.name, e.info, .none⟩ := rfl

@[simp] theorem deliver_toBlock (s : State) (a : Answer) : (deliver s a).toBlock = a.block := rfl
@[simp] theorem deliver_abuf (s : State) (a : Answer) : (deliver s a).abuf = a.block.abuf := rfl
@[simp] theorem deliver_crcr (s : State) (a : Answer) : (deliver s a).crcr = a.block.crcr := rfl
@[simp] theorem deliver_inputs (s : State) (a : Answer) : (deliver s a).inputs = s.inputs := rfl
@[simp] theorem deliver_completion (s : State) (a : Answer) : (deliver s a).completion = some a.completion := rfl

@[simp] theorem blockReset_abuf (p : CrcParams) : (Block.reset p).abuf = [] := rfl
@[simp] theorem blockReset_crcr (p : CrcParams) : (Block.reset p).crcr = p.init := rfl

@[simp] theorem applyReset_abuf (s : State) : (applyReset s).abuf = [] := rfl
@[simp] theorem applyReset_crcr (s : State) : (applyReset s).crcr = hwCrc.init := rfl
@[simp] theorem applyReset_inputs (s : State) : (applyReset s).inputs = s.inputs := rfl
@[simp] theorem applyReset_completion (s : State) : (applyReset s).completion = none := rfl

@[simp] theorem waitForInput_abuf (s : State) : (waitForInput s).abuf = s.abuf := rfl
@[simp] theorem waitForInput_crcr (s : State) : (waitForInput s).crcr = s.crcr := rfl
@[simp] theorem waitForInput_inputs (s : State) : (waitForInput s).inputs = s.inputs := rfl
@[simp] theorem waitForInput_completion (s : State) : (waitForInput s).completion = none := rfl

@[simp] theorem reset_abuf : State.reset.abuf = [] := rfl
@[simp] theorem reset_crcr : State.reset.crcr = hwCrc.init := rfl
@[simp] theorem reset_inputs : State.reset.inputs = [] := rfl
@[simp] theorem reset_completion : State.reset.completion = none := rfl

end Sys2Proof.Machine
end

