-- ==== Sys2Proof/Laws/Ops.lean ====
section
/-! SUPPORT. What the shared operations can do: ending an operation, taking an input, and presenting bytes
that are no instruction. -/

namespace Sys2Proof.Machine

section Finish
variable {α : Type} (b : Block) (asResult : α → Result) (x : Except Raised α)

@[simp] theorem finish_ok (v : α) : finish b asResult (.ok v) = completeOk b (asResult v) := rfl
@[simp] theorem finish_error (e : Raised) : finish b asResult (.error e) = raiseError b e := rfl

/-- However an operation ends this way, the block is as it was. -/
@[simp] theorem finish_block : (finish b asResult x).block = b := by cases x <;> rfl

/-- The two ways an operation can end. -/
theorem finish_cases :
    (∃ v, x = .ok v ∧ finish b asResult x = completeOk b (asResult v)) ∨
    (∃ e, x = .error e ∧ finish b asResult x = raiseError b e) := by
  cases x with
  | ok v => exact .inl ⟨v, rfl, rfl⟩
  | error e => exact .inr ⟨e, rfl, rfl⟩

/-- The completion of an operation that ends this way depends on its outcome alone. -/
theorem finish_completion (b' : Block) : (finish b asResult x).completion = (finish b' asResult x).completion := by
  cases x <;> rfl

/-- What an operation that ends this way leaves at the port when it returns a value. -/
theorem deliver_finish_ok {s : State} {v : α} (h : x = .ok v) :
    deliver s (finish s.toBlock asResult x) = { s with completion := some ⟨.ok, 0#16, asResult v⟩ } := by subst h; rfl

/-- What it leaves at the port when it raises an error. -/
theorem deliver_finish_error {s : State} {e : Raised} (h : x = .error e) :
    deliver s (finish s.toBlock asResult x) = { s with completion := some ⟨errorStatus e.name, e.info, .none⟩ } := by
  subst h; rfl

end Finish

/-- An error is never reported as `OK`. -/
theorem errorStatus_ne_ok (n : ErrorName) : errorStatus n ≠ .ok := by cases n <;> decide

/-- Two errors with the same status are the same error. -/
theorem errorStatus_injective {m n : ErrorName} (h : errorStatus m = errorStatus n) : m = n := by
  cases m <;> cases n <;> first | rfl | cases h

theorem fetch_nothing {s : State} (h : s.inputs = []) : fetch s = .nothing s := by simp [fetch, h]

theorem fetch_reset {s : State} {rest : List Input} (h : s.inputs = .reset :: rest) :
    fetch s = .reset { s with inputs := rest } := by simp [fetch, h]

theorem fetch_present {s : State} {c : Carrier} {rest : List Input} (h : s.inputs = .present c :: rest) :
    fetch s = .carrier c { s with inputs := rest } := by simp [fetch, h]

/-- Everything a step can find. -/
theorem fetch_cases (s : State) :
    (s.inputs = [] ∧ fetch s = .nothing s) ∨
    (∃ rest, s.inputs = .reset :: rest ∧ fetch s = .reset { s with inputs := rest }) ∨
    (∃ c rest, s.inputs = .present c :: rest ∧ fetch s = .carrier c { s with inputs := rest }) := by
  rcases h : s.inputs with _ | ⟨_ | _, rest⟩
  · exact .inl ⟨rfl, fetch_nothing h⟩
  · exact .inr (.inr ⟨_, rest, rfl, fetch_present h⟩)
  · exact .inr (.inl ⟨rest, rfl, fetch_reset h⟩)

/-- Bytes that are no instruction either raise an error of the block or are refused; neither changes `abuf` or `CRCR`. -/
theorem onDecodeError_next {e : DecodeError} {s t : State} (h : onDecodeError e s = .next t) :
    ∃ r, e = .raised r ∧ t = deliver s (raiseError s.toBlock r) := by
  cases e <;> simp [onDecodeError] at h
  exact ⟨_, rfl, h.symm⟩

end Sys2Proof.Machine
end

