-- ==== Sys2Proof/Laws/PerInstr.lean ====
section
/-! SUPPORT. What is said of every instruction, one lemma a constructor: the byte its encoding begins with
(30_encoding.md R41, R51). -/

namespace Sys2Proof

/-- The `op` code of an instruction (R51); a candidate frame has none. -/
def Instr.opCode : Instr → Option (BitVec 4)
  | .pldEnc _ => some 0x1#4
  | .pldDec _ => some 0x2#4
  | .crcInit => some 0x3#4
  | .crcByte _ => some 0x4#4
  | .crcRead => some 0x5#4
  | .crcBlk _ => some 0x6#4
  | .frmWrap _ _ _ => some 0x7#4
  | .frmEnc _ => some 0x8#4
  | .frmDec _ => some 0x9#4
  | .asmFeed _ => some 0xA#4
  | .asmClr => some 0xB#4
  | .telemetry _ _ => none

namespace Laws

/-- An instruction with an `op` code is presented as a request that begins with it, one without as a frame that begins with
the telemetry header. -/
def FirstByte.Statement (i : Instr) : Prop :=
  match i.opCode with
  | some op => ∃ operand, encode i = .request (op.setWidth 8 :: operand)
  | none => ∃ rest, encode i = .frame (0xE4#8 :: 0xEB#8 :: 0x05#8 :: 0x03#8 :: rest)

namespace FirstByte

theorem pldEnc (r : Record) : Statement (.pldEnc r) := ⟨_, rfl⟩
theorem pldDec (P : Bytes) : Statement (.pldDec P) := ⟨_, rfl⟩
theorem crcInit : Statement .crcInit := ⟨_, rfl⟩
theorem crcByte (b : Byte) : Statement (.crcByte b) := ⟨_, rfl⟩
theorem crcRead : Statement .crcRead := ⟨_, rfl⟩
theorem crcBlk (B : Bytes) : Statement (.crcBlk B) := ⟨_, rfl⟩
theorem frmWrap (cls id : Byte) (P : Bytes) : Statement (.frmWrap cls id P) := ⟨_, rfl⟩
theorem frmEnc (p : Payload) : Statement (.frmEnc p) := by cases p; exact ⟨_, rfl⟩
theorem frmDec (B : Bytes) : Statement (.frmDec B) := ⟨_, rfl⟩
theorem asmFeed (D : Bytes) : Statement (.asmFeed D) := ⟨_, rfl⟩
theorem asmClr : Statement .asmClr := ⟨_, rfl⟩
theorem telemetry (len : Word) (body : Bytes) : Statement (.telemetry len body) := ⟨_, rfl⟩

end FirstByte

end Laws

end Sys2Proof
end

