-- ==== Sys2Proof/Machine/Written.lean ====
section
/-! DEFINITION. The written form of byte sequences, records, operations, completions and events (spec/30_encoding.md R54).
It is presentation only (spec/92_eei_decisions.md D21): no meaning reads it. What R54 gives
no example of is this model's (DESIGN CHOICE, log entry 12). -/

namespace Sys2Proof.Machine.Written

/-- The characters that open and close a record; a string literal of this package holds no brace. -/
def opening : String := String.singleton (Char.ofNat 123)
def closing : String := String.singleton (Char.ofNat 125)

/-- One hexadecimal digit, capital. -/
def hexDigit (n : Nat) : Char := if n < 10 then Char.ofNat (48 + n) else Char.ofNat (55 + n)

/-- A number in `n` hexadecimal digits. -/
def hex : (n v : Nat) → String
  | 0, _ => ""
  | n + 1, v => hex n (v / 16) ++ String.singleton (hexDigit (v % 16))

/-- The texts in order, a separator between each two. -/
def joined (sep : String) : List String → String
  | [] => ""
  | [x] => x
  | x :: y :: t => x ++ sep ++ joined sep (y :: t)

/-- `[E4 EB 05 03]`. -/
def ofBytes (B : Bytes) : String := "[" ++ joined " " (B.map fun b => hex 2 b.toNat) ++ "]"

/-- `0xE4`. -/
def ofByte (b : Byte) : String := "0x" ++ hex 2 b.toNat

/-- `0x31C3`. -/
def ofWord (w : Word) : String := "0x" ++ hex 4 w.toNat

/-- A decimal value. -/
def ofInt (v : Int) : String := if 0 ≤ v then Nat.repr v.toNat else "-" ++ Nat.repr (-v).toNat

/-- The fields of a record, decimal, in layout order. -/
def ofRecord (r : Record) : String :=
  opening ++ joined ", "
    ["version=" ++ ofInt r.version, "time=" ++ ofInt r.time, "latitude=" ++ ofInt r.latitude,
     "longitude=" ++ ofInt r.longitude, "altitude=" ++ ofInt r.altitude, "heading=" ++ ofInt r.heading,
     "voltage=" ++ ofInt r.voltage, "fix_type=" ++ ofInt r.fixType] ++ closing

/-- A tagged payload. -/
def ofPayload : Payload → String
  | .telemetry r => "Telemetry" ++ ofRecord r

/-- The name of an error (60_exceptions.md R110). -/
def ofErrorName : ErrorName → String
  | .encodingRange => "EncodingRangeError"
  | .decodingLength => "DecodingLengthError"
  | .frameSync => "FrameSyncError"
  | .unknownPayloadType => "UnknownPayloadTypeError"
  | .frameTruncated => "FrameTruncatedError"
  | .checksumMismatch => "ChecksumMismatchError"

/-- The information word of an error, where R111 to R116 give it a value: the pair in hexadecimal, the index in decimal. -/
def ofInfo (name : ErrorName) (info : Word) : Option String :=
  match name with
  | .encodingRange => some (Nat.repr info.toNat)
  | .unknownPayloadType => some (ofWord info)
  | .decodingLength => none
  | .frameSync => none
  | .frameTruncated => none
  | .checksumMismatch => none

/-- An event of an event list. -/
def ofEvent : Event Payload → String
  | .payload p => "Payload(" ++ ofPayload p ++ ")"
  | .error name info => "Error(" ++ joined ", " (ofErrorName name :: (ofInfo name info).toList) ++ ")"

/-- An event list. -/
def ofEvents (es : List (Event Payload)) : String := "[" ++ joined ", " (es.map ofEvent) ++ "]"

/-- A result, if there is one. -/
def ofResult : Result → Option String
  | .none => none
  | .bytes B => some (ofBytes B)
  | .record r => some (ofRecord r)
  | .word w => some (ofWord w)
  | .frame p consumed => some ("(" ++ ofPayload p ++ ", " ++ Nat.repr consumed ++ ")")
  | .events es => some (ofEvents es)

/-- The error a status reports. -/
def errorOf : Status → Option ErrorName
  | .ok => none
  | .encodingRange => some .encodingRange
  | .decodingLength => some .decodingLength
  | .frameSync => some .frameSync
  | .unknownPayloadType => some .unknownPayloadType
  | .frameTruncated => some .frameTruncated
  | .checksumMismatch => some .checksumMismatch

/-- A completion: `OK`, `OK <result>`, or the error name with its info in parentheses. -/
def ofCompletion (c : Completion) : String :=
  match errorOf c.status with
  | none => joined " " ("OK" :: (ofResult c.result).toList)
  | some name =>
    match ofInfo name c.info with
    | none => ofErrorName name
    | some info => ofErrorName name ++ "(" ++ info ++ ")"

/-- An operation: its mnemonic followed by its operand. -/
def ofInstr : Instr → String
  | .pldEnc r => "PLD.ENC " ++ ofRecord r
  | .pldDec P => "PLD.DEC " ++ ofBytes P
  | .crcInit => "CRC.INIT"
  | .crcByte b => "CRC.BYTE " ++ ofByte b
  | .crcRead => "CRC.READ"
  | .crcBlk B => "CRC.BLK " ++ ofBytes B
  | .frmWrap cls id P => "FRM.WRAP " ++ joined ", " [ofByte cls, ofByte id, ofBytes P]
  | .frmEnc p => "FRM.ENC " ++ ofPayload p
  | .frmDec B => "FRM.DEC " ++ ofBytes B
  | .asmFeed D => "ASM.FEED " ++ ofBytes D
  | .asmClr => "ASM.CLR"
  | .telemetry len body => "TELEMETRY " ++ ofBytes (telemetryFrame len body)

/-- A line of a program: the operation and, after `=>`, its completion. -/
def ofLine (i : Instr) (c : Completion) : String := ofInstr i ++ " => " ++ ofCompletion c

end Sys2Proof.Machine.Written
end

