-- ==== Sys2Proof/Tests/Slice0.lean ====
section
/-! SUPPORT. The model's own tests. Expected values come from spec/: the vectors of 95_test_vectors.md, the worked examples
of the operation rules, and words written out by hand from the encodings of 30_encoding.md. After them, for each statement
with hypotheses, a witness that meets them. -/

namespace Sys2Proof.Tests

open Sys2Proof Sys2Proof.Machine

/-! ### Helpers and the named records and frames of 95_test_vectors.md -/

/-- The state an outcome answers. -/
def stateOf : Host.Outcome State Fault Refusal → Option State
  | .next s => some s
  | .fault _ => none
  | .refused _ => none

/-- The completion an outcome answers. -/
def said (o : Host.Outcome State Fault Refusal) : Option Completion := (stateOf o).bind State.completion

/-- Whether an outcome is a refusal. -/
def refuses : Host.Outcome State Fault Refusal → Bool
  | .next _ => false
  | .fault _ => false
  | .refused _ => true

/-- A state with a given buffer and CRC register. -/
def holding (abuf : Bytes) (crcr : Word) : State := { State.reset with abuf := abuf, crcr := crcr }

/-- A state in which the requester presents one thing. -/
def given (i : Input) : State := { State.reset with inputs := [i] }

def T1 : Record := ⟨1, 1700000000, 327012345, -1172345678, 120, -90, 3700, 3⟩
def T2 : Record := ⟨0, 0, 0, 0, 0, 0, 0, 0⟩
def T3 : Record := ⟨255, 18446744073709551615, 2147483647, -2147483648, 65535, 32767, 65535, 255⟩
def T4 : Record := ⟨1, 1, -2147483648, 2147483647, 1, -32768, 1, 1⟩
def T5 : Record := ⟨2, 72623859790382856, -1, -2, 2571, -1, 3085, 14⟩

def P1 : Bytes := [0x01, 0x00, 0x00, 0x00, 0x00, 0x65, 0x53, 0xF1, 0x00, 0x13, 0x7D, 0xCF, 0xF9, 0xBA, 0x1F, 0x6C, 0xB2, 0x00,
  0x78, 0xFF, 0xA6, 0x0E, 0x74, 0x03]
def P3 : Bytes := [0xFF, 0xFF, 0xFF, 0xFF, 0xFF, 0xFF, 0xFF, 0xFF, 0xFF, 0x7F, 0xFF, 0xFF, 0xFF, 0x80, 0x00, 0x00, 0x00, 0xFF,
  0xFF, 0x7F, 0xFF, 0xFF, 0xFF, 0xFF]
def P4 : Bytes := [0x01, 0x00, 0x00, 0x00, 0x00, 0x00, 0x00, 0x00, 0x01, 0x80, 0x00, 0x00, 0x00, 0x7F, 0xFF, 0xFF, 0xFF, 0x00,
  0x01, 0x80, 0x00, 0x00, 0x01, 0x01]
def P5 : Bytes := [0x02, 0x01, 0x02, 0x03, 0x04, 0x05, 0x06, 0x07, 0x08, 0xFF, 0xFF, 0xFF, 0xFF, 0xFF, 0xFF, 0xFF, 0xFE, 0x0A,
  0x0B, 0xFF, 0xFF, 0x0C, 0x0D, 0x0E]

/-- The header of every telemetry frame. -/
def hdr : Bytes := [0xE4, 0xEB, 0x05, 0x03, 0x00, 0x18]
def F1 : Bytes := hdr ++ P1 ++ [0x9F, 0x53]
def F2 : Bytes := hdr ++ List.replicate 24 0x00 ++ [0x7B, 0x50]
def F5 : Bytes := hdr ++ P5 ++ [0xC8, 0xA7]
/-- `U` of V-F1: a well-formed frame of an unregistered kind. -/
def U : Bytes := [0xE4, 0xEB, 0x01, 0x02, 0x00, 0x02, 0xAA, 0xBB, 0xA7, 0xDE]
/-- `SH` of V-F1: eight payload bytes, a good checksum. -/
def SH : Bytes := [0xE4, 0xEB, 0x05, 0x03, 0x00, 0x08, 0x01, 0x02, 0x03, 0x04, 0x05, 0x06, 0x07, 0x08, 0x33, 0x44]
/-- `LG` of V-F1: 26 payload bytes, a good checksum. -/
def LG : Bytes := [0xE4, 0xEB, 0x05, 0x03, 0x00, 0x1A] ++ P5 ++ [0xDE, 0xAD, 0x22, 0x53]
/-- F1 with byte 10 = 01: a checksum that does not match. -/
def F1bad : Bytes := F1.set 10 0x01
/-- "123456789". -/
def digits : Bytes := [0x31, 0x32, 0x33, 0x34, 0x35, 0x36, 0x37, 0x38, 0x39]

/-! ### WellFormed: an ill-formed term for each check -/

/-- A build with a finite field port. -/
def port65 : Config Payload := { Config.hw with fieldPortW := some 65 }

/-- Each of the eight fields wider than the port, and the widest values that fit. -/
theorem test_wf_pldEnc : ([{ T1 with version := 2 ^ 64 }, { T1 with time := 2 ^ 64 }, { T1 with latitude := 2 ^ 64 },
    { T1 with longitude := -2 ^ 64 - 1 }, { T1 with altitude := 2 ^ 64 }, { T1 with heading := -2 ^ 64 - 1 },
    { T1 with voltage := 2 ^ 64 }, { T1 with fixType := 2 ^ 64 }].all fun r => !(Instr.pldEnc r).wf port65) = true ∧
    (Instr.pldEnc { T1 with time := 2 ^ 64 - 1, latitude := -2 ^ 64 }).wf port65 = true := by decide
theorem test_wf_frmEnc : (Instr.frmEnc (.telemetry { T1 with time := 2 ^ 64 })).wf port65 = false ∧
    (Instr.frmEnc (.telemetry T3)).wf port65 = true := by decide
theorem test_wf_hw_refuses_nothing : (Instr.pldEnc { T1 with time := 2 ^ 200 }).wf Config.hw = true := by decide
theorem test_wf_crc_width : ({ Config.hw with crcWidth := 32 } : Config Payload).wf = false := by decide
/-- A build of two instances has two, and no third; this hardware has any number, each at its reset values (R20). -/
theorem test_wf_instances : ({ Config.hw with nInstances := some 2 } : Config Payload).admits 2 = true ∧
    ({ Config.hw with nInstances := some 2 } : Config Payload).admits 3 = false ∧
    System.reset { Config.hw with nInstances := some 2 } 3 = none ∧
    System.reset Config.hw 3 = some (Vector.replicate 3 State.reset) := by decide
theorem test_wf_registry_is_a_map : ({ Config.hw with registry := [tlmEntry, tlmEntry] } : Config Payload).wf = false := by decide
theorem test_wf_explen_fits_the_length_field :
    ({ Config.hw with registry := [{ tlmEntry with explen := 65536 }] } : Config Payload).wf = false ∧
    ({ Config.hw with registry := [{ tlmEntry with explen := 65535 }] } : Config Payload).wf = true := by decide
theorem test_wf_buffer_holds_a_frame : ({ Config.hw with asmBufCap := some 31 } : Config Payload).wf = false ∧
    ({ Config.hw with asmBufCap := some 32 } : Config Payload).wf = true ∧
    ({ Config.hwWith .xmodem .trust with asmBufCap := some 65542 } : Config Payload).wf = false ∧
    ({ Config.hwWith .xmodem .trust with asmBufCap := some 65543 } : Config Payload).wf = true := by decide
theorem test_wf_field_port : ({ Config.hw with fieldPortW := some 64 } : Config Payload).wf = false ∧
    port65.wf = true ∧ Config.hw.wf = true := by decide

/-! ### Decode: a word written out for each constructor (op codes of R51, header of R41), and what is refused -/

theorem test_decode_pldEnc : decode (.request [0x01, 0x01, 0x02, 0x03, 0x04, 0x05, 0x06, 0x07, 0x80, 0x01]) =
    .ok (.pldEnc ⟨-1, 1, -2, 2, -3, 3, -4, 64⟩) := by decide
theorem test_decode_pldDec : decode (.request [0x02, 0xFF]) = .ok (.pldDec [0xFF]) := by decide
theorem test_decode_crcInit : decode (.request [0x03]) = .ok .crcInit := by decide
theorem test_decode_crcByte : decode (.request [0x04, 0xA5]) = .ok (.crcByte 0xA5) := by decide
theorem test_decode_crcRead : decode (.request [0x05]) = .ok .crcRead := by decide
theorem test_decode_crcBlk : decode (.request [0x06]) = .ok (.crcBlk []) := by decide
theorem test_decode_frmWrap : decode (.request [0x07, 0x05, 0x03, 0x00]) = .ok (.frmWrap 0x05 0x03 [0x00]) := by decide
theorem test_decode_frmEnc : decode (.request [0x08, 0x00, 0, 0, 0, 0, 0, 0, 0, 6]) =
    .ok (.frmEnc (.telemetry ⟨0, 0, 0, 0, 0, 0, 0, 3⟩)) := by decide
theorem test_decode_frmDec : decode (.request [0x09, 0xE4, 0xEB]) = .ok (.frmDec [0xE4, 0xEB]) := by decide
theorem test_decode_asmFeed : decode (.request [0x0A]) = .ok (.asmFeed []) := by decide
theorem test_decode_asmClr : decode (.request [0x0B]) = .ok .asmClr := by decide
theorem test_decode_telemetry : decode (.frame [0xE4, 0xEB, 0x05, 0x03, 0x12, 0x34, 0x56]) = .ok (.telemetry 0x1234 [0x56]) := by
  decide
/-- R52: the reserved codes, and why other requests are no instruction (log entry 2). -/
theorem test_decode_refused :
    decode (.request [0x00, 0xFF]) = .error (.reservedOp 0x0) ∧ decode (.request [0x0C]) = .error (.reservedOp 0xC) ∧
    decode (.request [0x0F]) = .error (.reservedOp 0xF) ∧ decode (.request []) = .error .emptyRequest ∧
    decode (.request [0x13]) = .error (.noOpCode 0x13) ∧ decode (.request [0x03, 0x00]) = .error .trailingBytes ∧
    decode (.request [0x04]) = .error .truncatedOperand ∧ decode (.request [0x07, 0x05]) = .error .truncatedOperand ∧
    decode (.request [0x01, 0x80, 0x00, 0, 0, 0, 0, 0, 0, 0]) = .error .nonCanonicalInteger ∧
    decode (.request [0x08, 0x01]) = .error (.unregisteredKind 0x01) := by decide
/-- R56: the table's checks of a header, in the order (a), (b), (c). -/
theorem test_decode_frame_checks :
    decode (.frame [0x00, 0x00, 0x00, 0x00, 0x00]) = .error (.raised ⟨.frameTruncated, 0⟩) ∧
    decode (.frame [0xE5, 0xEB, 0x09, 0x09, 0x00, 0x00]) = .error (.raised ⟨.frameSync, 0⟩) ∧
    decode (.frame U) = .error (.raised ⟨.unknownPayloadType, 0x0102⟩) := by decide
theorem test_opcode_table : (List.range 16).map (fun w => (decodeTableWord 4 w).isSome) =
    [false, true, true, true, true, true, true, true, true, true, true, true, false, false, false, false] := by decide
theorem test_opcode_table_frame : decodeTableWord 48 0xE4EB05030018 = some (.telemetry 24 (List.replicate 26 0)) ∧
    decodeTableWord 48 0xE4EB05030000 = some (.telemetry 0 [0, 0]) ∧ decodeTableWord 48 0xE4EB05040000 = none := by decide
theorem test_withFetchWord : (said (step (State.reset.withFetchWord 4 0x5)) = completed (.word 0)) ∧
    said (step (State.reset.withFetchWord 48 0xE4EB05030018)) = failed .checksumMismatch 0 := by decide +kernel

/-! ### The step function of R10: the operand is its argument, the result its return value, the block its only state -/

/-- V-C3: what comes back, and the block that is left. -/
theorem test_operate : operate (.crcByte 0x31) ⟨[0xE4], 0⟩ = ⟨⟨.ok, 0, .none⟩, ⟨[0xE4], 0x2672⟩⟩ ∧
    operate .crcRead ⟨[0xE4], 0x31C3⟩ = ⟨⟨.ok, 0, .word 0x31C3⟩, ⟨[0xE4], 0x31C3⟩⟩ := by decide +kernel

/-! ### Steps (completions as 95_test_vectors.md gives them) -/

/-- V-P1, V-P9. -/
theorem test_pldEnc : said (exec (.pldEnc T1) .reset) = completed (.bytes P1) ∧
    said (exec (.pldEnc { T1 with latitude := 2147483648, heading := 40000 }) .reset) = failed .encodingRange 2 := by
  decide +kernel
/-- V-P3, V-P4: the extremes. -/
theorem test_pldEnc_extremes : said (exec (.pldEnc T3) .reset) = completed (.bytes P3) ∧
    said (exec (.pldEnc T4) .reset) = completed (.bytes P4) := by decide +kernel
/-- V-P5, V-P6: byte order and offsets; a longer slice; 23 bytes. -/
theorem test_pldDec : said (exec (.pldDec (P5 ++ [0xDE, 0xAD])) .reset) = completed (.record T5) ∧
    said (exec (.pldDec (P1.take 23)) .reset) = failed .decodingLength 0 := by decide +kernel
/-- V-C3. -/
theorem test_crc_port : stateOf (exec .crcInit (holding [] 0xFFFF)) = some { holding [] 0x0000 with completion := completed .none } ∧
    stateOf (exec (.crcByte 0x31) (holding [] 0x0000)) = some { holding [] 0x2672 with completion := completed .none } ∧
    stateOf (exec .crcRead (holding [] 0x31C3)) = some { holding [] 0x31C3 with completion := completed (.word 0x31C3) } := by
  decide +kernel
/-- V-C1: the check value, and a byte of V-C4. -/
theorem test_crcBlk : said (exec (.crcBlk digits) .reset) = completed (.word 0x31C3) ∧
    said (exec (.crcBlk (F1.take 30)) .reset) = completed (.word 0x9F53) := by decide +kernel
/-- V-C1, columns 2 and 3: two other parameter sets. -/
theorem test_crc_other_sets : crc16 { CrcParams.xmodem with init := 0xFFFF } digits = 0x29B1 ∧
    crc16 { CrcParams.xmodem with refin := true, refout := true } digits = 0x2189 := by decide +kernel
/-- V-F1. -/
theorem test_frmWrap : said (exec (.frmWrap 0x01 0x02 [0xAA, 0xBB]) .reset) = completed (.bytes U) ∧
    said (exec (.frmWrap 0x05 0x03 []) .reset) = completed (.bytes [0xE4, 0xEB, 0x05, 0x03, 0x00, 0x00, 0xBF, 0x7F]) := by
  decide +kernel
/-- V-F1, V-P9. -/
theorem test_frmEnc : said (exec (.frmEnc (.telemetry T1)) .reset) = completed (.bytes F1) ∧
    said (exec (.frmEnc (.telemetry { T1 with version := 256, fixType := 256 })) .reset) = failed .encodingRange 0 := by
  decide +kernel
/-- V-F2 rows 6, 14. -/
theorem test_frmDec : said (exec (.frmDec (F1 ++ [0xAA])) .reset) = completed (.frame (.telemetry T1) 32) ∧
    said (exec (.frmDec F1bad) .reset) = failed .checksumMismatch 0 := by decide +kernel
/-- V-F2 rows 11, 17, 18, 19: the order of the checks. -/
theorem test_frmDec_order : said (exec (.frmDec (F1.set 5 0x19)) .reset) = failed .decodingLength 0 ∧
    said (exec (.frmDec [0, 0, 0, 0, 0]) .reset) = failed .frameTruncated 0 ∧
    said (exec (.frmDec [0xE5, 0xEB, 0x09, 0x09, 0, 0]) .reset) = failed .frameSync 0 ∧
    said (exec (.frmDec [0xE4, 0xEB, 0x01, 0x02, 0, 0]) .reset) = failed .unknownPayloadType 0x0102 := by decide +kernel
/-- V-F2 rows 12, 22, 23: `LEN_CHECK = TRUST`. -/
theorem test_frameDecode_trust : frameDecode (Config.hwWith .xmodem .trust) (F1.set 5 0x08) = .error ⟨.checksumMismatch, 0⟩ ∧
    frameDecode (Config.hwWith .xmodem .trust) SH = .error ⟨.decodingLength, 0⟩ ∧
    frameDecode (Config.hwWith .xmodem .trust) LG = .ok (.telemetry T5, 34) := by decide +kernel
/-- V-F2 rows 5, 13, as a frame presented as it stands. -/
theorem test_telemetry : said (exec (.telemetry 0x0018 (P1 ++ [0x9F, 0x53])) .reset) = completed (.frame (.telemetry T1) 32) ∧
    said (exec (.telemetry 0x0118 (P1 ++ [0x9F, 0x53])) .reset) = failed .decodingLength 0 := by decide +kernel
/-- V-A6: two frames and a tail; `CRCR` stays. -/
theorem test_asmFeed : stateOf (exec (.asmFeed (F1 ++ F2 ++ F5.take 7)) (holding [] 0x20B5)) =
    some { holding [0xE4, 0xEB, 0x05, 0x03, 0x00, 0x18, 0x02] 0x20B5 with
      completion := completed (.events [.payload (.telemetry T1), .payload (.telemetry T2)]) } := by decide +kernel
/-- V-A5: an unknown kind, then a good frame, from a held `E4`. -/
theorem test_asmFeed_unknown : stateOf (exec (.asmFeed (U.drop 1 ++ F2)) (holding [0xE4] 0)) =
    some { holding [] 0 with
      completion := completed (.events [.error .unknownPayloadType 0x0102, .payload (.telemetry T2)]) } := by decide +kernel
/-- R99. -/
theorem test_asmClr : stateOf (exec .asmClr (holding [0xE4, 0xEB, 0x05] 0x20B5)) =
    some { holding [] 0x20B5 with completion := completed .none } := by decide
/-- R130, R139. -/
theorem test_step_reset_and_idle : stateOf (step { holding [0xE4] 0x20B5 with inputs := [.reset] }) = some (holding [] 0) ∧
    stateOf (step (holding [0xE4] 0x20B5)) = some (holding [0xE4] 0x20B5) := by decide
/-- R52. -/
theorem test_step_reserved : refuses (step (given (.present (.request [0x0C])))) = true := by decide
/-- R110: the codes of the statuses. -/
theorem test_status_codes : [Status.ok, .encodingRange, .decodingLength, .frameSync, .unknownPayloadType, .frameTruncated,
    .checksumMismatch].map Status.code = [0, 1, 2, 3, 4, 5, 6] := by decide
/-- R54: the examples of the written form. -/
theorem test_written : Written.ofLine (.crcBlk [0x31, 0x0A]) ⟨.ok, 0, .word 0x31C3⟩ = "CRC.BLK [31 0A] => OK 0x31C3" ∧
    Written.ofLine (.frmDec [0xE4]) ⟨.unknownPayloadType, 0x0102, .none⟩ = "FRM.DEC [E4] => UnknownPayloadTypeError(0x0102)" ∧
    Written.ofEvents [.error .checksumMismatch 0, .error .unknownPayloadType 0] =
      "[Error(ChecksumMismatchError), Error(UnknownPayloadTypeError, 0x0000)]" := by decide +kernel

/-! ### Witnesses: for each statement with hypotheses, a state and operands that meet them, for each of its clauses -/

section Witnesses

theorem witness_ResetInputRestoresResetState : ({ holding [0xE4] 7 with inputs := [.reset, .reset] } : State).inputs =
    .reset :: [.reset] := rfl
theorem witness_IdleBlockKeepsItsState : (holding [0xE4] 7).inputs = [] := rfl
theorem witness_StepRunsTheDecodedInstruction : (given (.present (.request [0x03]))).inputs = [.present (.request [0x03])] ∧
    decode (.request [0x03]) = .ok .crcInit := by decide
/-- Every code of R52, with an operand and without. -/
theorem witness_ReservedOpCodesAreRefused : ∀ op ∈ [0x0#4, 0xC#4, 0xD#4, 0xE#4, 0xF#4], ∀ operand ∈ [[], [0x00#8]],
    (given (.present (.request (op.setWidth 8 :: operand)))).inputs = [.present (.request (op.setWidth 8 :: operand))] ∧
    (op = 0x0#4 ∨ op = 0xC#4 ∨ op = 0xD#4 ∨ op = 0xE#4 ∨ op = 0xF#4) := by decide
theorem witness_PresentedProgramRunsInOrder : ∃ t cs, runOps [.crcInit, .crcByte 0x31, .crcRead] .reset = .next (t, cs) :=
  ⟨_, _, rfl⟩
theorem witness_EncodeUndoesDecode : decode (.request [0x04, 0x31]) = .ok (.crcByte 0x31) := by decide
theorem witness_PresentedFrameEndsAsFrmDec : (given (.present (.frame F1))).inputs = [.present (.frame F1)] := rfl
/-- The last byte of a number, the largest value of a width, a field that ends the sequence, its two neighbours. -/
theorem witness_MemWrite : (0 < 1 ∧ 7 < 8) ∧ (0 + 2 ≤ (be 2 65535).length ∧ 65535 < 256 ^ 2) ∧
    (22 + 2 ≤ P1.length ∧ 65535 < 256 ^ 2) ∧ (21 < 22 ∨ 22 + 2 ≤ 21) ∧ (24 < 22 ∨ 22 + 2 ≤ 24) := by decide
/-- Records at both ends of every range, and the first values outside (V-P8). -/
theorem witness_PldEnc : ([T1, T2, T3, T4, T5].all Record.inRange) = true ∧
    ([{ T1 with version := 256 }, { T1 with time := 18446744073709551616 }, { T1 with latitude := 2147483648 },
      { T1 with longitude := -2147483649 }, { T1 with altitude := 65536 }, { T1 with heading := -32769 },
      { T1 with voltage := -1 }, { T1 with fixType := 256 }].map Record.firstOutOfRange) =
      [some 0, some 1, some 2, some 3, some 4, some 5, some 6, some 7] := by decide
theorem witness_PldDec : (P1.take 23).length < 24 ∧ 24 ≤ P1.length ∧ 24 ≤ (P1 ++ [0x00#8]).length := by decide
theorem witness_PayloadRoundTrip : T3.inRange = true ∧ T4.inRange = true := by decide
theorem witness_PayloadCodecIsABijection : P3.length = 24 ∧ T1.inRange = true ∧ tlmEncode T1 = tlmEncode { T1 with version := 1 } := by
  decide +kernel
theorem witness_PortOf65Bits : T3.inRange = true := by decide
theorem witness_XmodemProperties : P1.length = P5.length ∧ (0 < P1.length ∧ 0 < 8) ∧ (23 < P1.length ∧ 7 < 8) := by decide
theorem witness_CrcrFollowsInitAndByteOnly :
    ∃ t cs, runOps [.crcInit, .crcBlk [0xFF], .crcByte 0x31, .asmClr] .reset = .next (t, cs) := ⟨_, _, rfl⟩
/-- The longest payload that fits, and the shortest that does not. -/
theorem witness_FrmWrap : (List.replicate 65535 0#8).length ≤ 65535 ∧ 65535 < (List.replicate 65536 0#8).length := by
  simp only [List.length_replicate]; decide
theorem witness_FrmEnc : T3.inRange = true ∧ { T3 with fixType := 256 }.firstOutOfRange = some 7 := by decide

/-- The configuration of a build with one other payload kind: pair `(0x01, 0x02)`, two payload bytes. -/
def pairEntry : Entry Unit :=
  { cls := 0x01, id := 0x02, explen := 2,
    dec := fun P => if 2 ≤ P.length then .ok () else .error ⟨.decodingLength, 0⟩,
    enc := fun _ => .ok [0xAA, 0xBB] }
def pairConfig (l : LenCheck) : Config Unit :=
  { crcWidth := 16, crc := .xmodem, lenCheck := l, registry := [pairEntry],
    asmBufCap := some 65543, fieldPortW := some 65, nInstances := none }

theorem pairConfig_lawful (l : LenCheck) : (pairConfig l).Lawful := by
  refine ⟨by cases l <;> decide, fun e he => ?_⟩
  obtain rfl : e = pairEntry := by simpa [pairConfig] using he
  refine ⟨by decide, fun p P h => ?_, fun p x h => ?_, fun P h => ⟨(), if_pos h⟩, fun P x h => ?_⟩
  · cases h; rfl
  · cases h
  · simp only [pairEntry] at h
    split at h <;> cases h
    rfl

/-- A frame whose length field is longer than its kind expects, with a correct checksum. -/
def longPair : Bytes := [0xE4, 0xEB, 0x01, 0x02, 0x00, 0x03, 0xAA, 0xBB, 0xCC]
def longPairFrame : Bytes := longPair ++ wordBytes (crc16 .xmodem longPair)

/-- Clause by clause: (a); (b) by either byte; (c); (L) by one below and above; (d) one byte short; (e) both ways; and the
same checks under `TRUST`. -/
theorem witness_FrameDecodeChecksInOrder :
    (U.take 5).length < 6 ∧ ¬ ((0xE5 : Byte) = 0xE4 ∧ (0xEB : Byte) = 0xEB) ∧ ¬ ((0xE4 : Byte) = 0xE4 ∧ (0xEA : Byte) = 0xEB) ∧
    ((pairConfig .strict).lookup 0x01 0x03).isNone = true ∧ (pairConfig .strict).lookup 0x01 0x02 = some pairEntry ∧
    (pairConfig .strict).lenCheck = .strict ∧ 1 ≠ pairEntry.explen ∧ 3 ≠ pairEntry.explen ∧ 2 = pairEntry.explen ∧
    (U.take 9).length < 8 + 2 ∧ 8 + 2 ≤ U.length ∧
    beNat ((U.drop (6 + 2)).take 2) = (crc16 .xmodem (U.take (6 + 2))).toNat ∧
    beNat (((U.set 9 0xDF).drop (6 + 2)).take 2) ≠ (crc16 .xmodem ((U.set 9 0xDF).take (6 + 2))).toNat ∧
    (pairConfig .trust).lenCheck ≠ .strict ∧
    beNat ((longPairFrame.drop (6 + 3)).take 2) = (crc16 .xmodem (longPairFrame.take (6 + 3))).toNat := by
  refine ⟨by decide, by decide, by decide, by decide, rfl, rfl, ?_⟩
  decide +kernel
/-- Clause by clause, on F1 and changes of one byte. -/
theorem witness_FrmDec :
    (F1.take 5).length < 6 ∧ ¬ ((0xE4 : Byte) = 0xE4 ∧ (0xEC : Byte) = 0xEB) ∧ ¬ ((0x05 : Byte) = 0x05 ∧ (0x04 : Byte) = 0x03) ∧
    ¬ ((0x00 : Byte) = 0x00 ∧ (0x17 : Byte) = 0x18) ∧ ¬ ((0x01 : Byte) = 0x00 ∧ (0x18 : Byte) = 0x18) ∧
    (F1.take 31).length < 32 ∧ 32 ≤ F1.length ∧
    (F1bad.drop 30).take 2 ≠ wordBytes (crc16 Config.hw.crc (F1bad.take 30)) ∧
    (F1.drop 30).take 2 = wordBytes (crc16 Config.hw.crc (F1.take 30)) := by decide +kernel
theorem witness_Telemetry : (23#16 ≠ 24#16 ∧ 25#16 ≠ 24#16) ∧ (F1.drop 6).dropLast.length < 26 ∧ 26 ≤ (F1.drop 6).length ∧
    ((F1bad.drop 6).drop 24).take 2 ≠ wordBytes (crc16 Config.hw.crc (hdr ++ (F1bad.drop 6).take 24)) ∧
    ((F1.drop 6).drop 24).take 2 = wordBytes (crc16 Config.hw.crc (hdr ++ (F1.drop 6).take 24)) := by decide +kernel

/-- A telemetry frame with any payload bytes and a correct checksum. -/
def sealed (len : Byte) (P : Bytes) : Bytes :=
  let B := [0xE4#8, 0xEB#8, 0x05#8, 0x03#8, 0x00#8, len] ++ P
  B ++ wordBytes (crc16 .xmodem B)
/-- Whether the checksum of a frame with an `n`-byte payload is correct. -/
def sealHolds (n : Nat) (B : Bytes) : Bool := beNat ((B.drop (6 + n)).take 2) == (crc16 .xmodem (B.take (6 + n))).toNat

/-- Lengths 23, 24 and 25, each with a correct checksum, one byte short, and with a wrong one. -/
theorem witness_PayloadLengthChecker : (23 ≠ 24 ∧ 25 ≠ 24) ∧
    (8 + 23 ≤ (sealed 23 (P1.take 23)).length ∧ sealHolds 23 (sealed 23 (P1.take 23)) = true ∧ 23 < 24) ∧
    (8 + 24 ≤ (sealed 24 P1).length ∧ sealHolds 24 (sealed 24 P1) = true ∧ 24 ≤ 24) ∧
    (8 + 25 ≤ (sealed 25 (P1 ++ [0x00])).length ∧ sealHolds 25 (sealed 25 (P1 ++ [0x00])) = true ∧ 24 ≤ 25) ∧
    (sealed 25 (P1 ++ [0x00])).dropLast.length < 8 + 25 ∧ sealHolds 24 F1bad = false := by decide +kernel
/-- A lawful registry under either `LEN_CHECK`; a buffer that holds a well-formed frame, and one with a longer length. -/
theorem witness_FrameDecodeSucceeds : (pairConfig .strict).Lawful ∧ (pairConfig .trust).Lawful ∧
    WellFormedFrame (pairConfig .strict) (U.take (8 + lengthField U)) ∧
    (6 ≤ longPairFrame.length ∧ BeginsWithSync longPairFrame ∧ 8 + lengthField longPairFrame ≤ longPairFrame.length ∧
      KindOf (pairConfig .trust) longPairFrame pairEntry ∧ pairEntry.explen ≤ lengthField longPairFrame ∧
      beNat ((longPairFrame.drop (6 + lengthField longPairFrame)).take 2) =
        (crc16 .xmodem (longPairFrame.take (6 + lengthField longPairFrame))).toNat) :=
  ⟨pairConfig_lawful _, pairConfig_lawful _,
    ⟨by decide, ⟨rfl, rfl⟩, pairEntry, ⟨_, _, rfl, rfl, rfl⟩, by decide, by decide, by decide +kernel⟩,
    by decide +kernel, ⟨rfl, rfl⟩, by decide +kernel, ⟨_, _, rfl, rfl, rfl⟩, by decide +kernel, by decide +kernel⟩
theorem witness_FrameRoundTrip : T4.inRange = true := by decide

/-- F1 is a well-formed telemetry frame, under either `LEN_CHECK`. -/
theorem F1_wellFormed (l : LenCheck) : WellFormedFrame (Config.hwWith .xmodem l) F1 :=
  ⟨by decide, ⟨rfl, rfl⟩, tlmEntry, ⟨_, _, rfl, rfl, rfl⟩, by decide, by decide, by
    cases l <;> decide +kernel⟩
/-- A well-formed frame, and a bit of every byte where the answer changes. -/
theorem witness_SingleBitFlip : WellFormedFrame Config.hw F1 ∧ ∀ k ∈ [0, 1, 2, 3, 4, 5, 6, 29, 30, 31], k < 32 ∧ 0 < 8 ∧ 7 < 8 :=
  ⟨F1_wellFormed .strict, by decide⟩
theorem witness_ChecksumAndLengthFlips : (∀ l, WellFormedFrame (Config.hwWith .xmodem l) F1) ∧ 0 < 8 ∧ 7 < 8 ∧
    (30 = 30 ∨ 30 = 31) ∧ (31 = 30 ∨ 31 = 31) ∧ (4 = 4 ∨ 4 = 5 ∧ 0 ≠ 3 ∧ 0 ≠ 4) ∧ (5 = 4 ∨ 5 = 5 ∧ 2 ≠ 3 ∧ 2 ≠ 4) ∧
    (5 = 4 ∨ 5 = 5 ∧ 5 ≠ 3 ∧ 5 ≠ 4) ∧ (3 = 3 ∨ 3 = 4) ∧ (4 = 3 ∨ 4 = 4) := ⟨F1_wellFormed, by decide⟩
theorem witness_OnlyTelemetryIsRegistered : ¬ ((0x05 : Byte) = 0x05 ∧ (0x04 : Byte) = 0x03) ∧
    ¬ ((0x06 : Byte) = 0x05 ∧ (0x03 : Byte) = 0x03) := by decide
/-- The smallest frame that is built and the header that announces the largest; a frame that is accepted. -/
theorem witness_FrameSize : hdrLen ≤ ([0xE4, 0xEB, 0x05, 0x03, 0xFF, 0xFF] : Bytes).length ∧
    frameWrap .xmodem 0x05 0x03 [] = .ok [0xE4, 0xEB, 0x05, 0x03, 0x00, 0x00, 0xBF, 0x7F] ∧
    frameDecode Config.hw F1 = .ok (.telemetry T1, 32) := by decide +kernel
/-- A byte that is no sync byte, three and four bytes after the sync pair, and the three outcomes of `frame_decode`. -/
theorem witness_DrainLoopOutcomes : (0x00 : Byte) ≠ 0xE4 ∧ (0xE4 : Byte) ≠ 0xEB ∧ (hdr.take 5).tail.tail.length < 4 ∧
    4 ≤ hdr.tail.tail.length ∧ frameDecode Config.hw F1 = .ok (.telemetry T1, 32) ∧
    frameDecode Config.hw hdr = .error ⟨.frameTruncated, 0⟩ ∧ frameDecode Config.hw F1bad = .error ⟨.checksumMismatch, 0⟩ ∧
    frameDecode (pairConfig .strict) hdr = .error ⟨.unknownPayloadType, 0x0503⟩ := by decide +kernel
/-- The configuration of the last clause is lawful, and each of the three error events occurs. -/
theorem witness_AssemblerErrorEvents : (pairConfig .strict).Lawful ∧
    .error .unknownPayloadType 0x0503 ∈ (asmFeed (pairConfig .strict) [] hdr).1 ∧
    .error .decodingLength 0 ∈ (asmFeed (pairConfig .strict) [] longPairFrame).1 ∧
    .error .checksumMismatch 0 ∈ (asmFeed (pairConfig .strict) [] (U.set 9 0xDF)).1 :=
  ⟨pairConfig_lawful _, by decide +kernel⟩
/-- A lawful configuration with a finite buffer, and a buffer in each of the four forms, the longest of the last too. -/
theorem witness_FeedLeavesAQuiescentBuffer : (pairConfig .strict).Lawful ∧ (pairConfig .strict).asmBufCap = some 65543 ∧
    (∀ buf ∈ [[], [0xE4], U.take 2, U.take 5], Quiescent (pairConfig .strict) buf) ∧
    Quiescent (pairConfig .strict) (U.take 6) ∧ Quiescent (pairConfig .strict) (U.take 9) := by
  refine ⟨pairConfig_lawful _, rfl, ?_, ?_, ?_⟩
  · intro buf h
    simp only [List.mem_cons, List.not_mem_nil, or_false] at h
    rcases h with rfl | rfl | rfl | rfl
    · exact .inl rfl
    · exact .inr (.inl rfl)
    · exact .inr (.inr (.inl ⟨by decide, by decide, rfl, rfl⟩))
    · exact .inr (.inr (.inl ⟨by decide, by decide, rfl, rfl⟩))
  · exact .inr (.inr (.inr ⟨by decide, ⟨rfl, rfl⟩, pairEntry, ⟨_, _, rfl, rfl, rfl⟩, by decide, by decide⟩))
  · exact .inr (.inr (.inr ⟨by decide, ⟨rfl, rfl⟩, pairEntry, ⟨_, _, rfl, rfl, rfl⟩, by decide, by decide⟩))
/-- A buffer of the fourth form: 31 bytes of F1. -/
theorem F1_held : Quiescent Config.hw (F1.take 31) :=
  .inr (.inr (.inr ⟨by decide, ⟨rfl, rfl⟩, tlmEntry, ⟨_, _, rfl, rfl, rfl⟩, by decide, by decide⟩))
theorem witness_AsmFeedAppendsAndDrains : QuiescentState State.reset ∧ QuiescentState (holding (F1.take 31) 7) :=
  ⟨.inl rfl, F1_held⟩
theorem witness_PushingBytesEqualsFeeding : QuiescentState (holding (F1.take 31) 7) := F1_held
/-- An in-range record, its frame, and pieces of it, an empty one among them. -/
theorem witness_EndToEnd : T1.inRange = true ∧ State.reset.abuf = [] ∧
    frameEncode Config.hw tlmEntry (.telemetry T1) = .ok F1 ∧
    [[], F1.take 1, (F1.take 31).drop 1].flatten ++ F1.drop 31 = F1 ∧ F1.drop 31 ≠ [] := by decide +kernel
/-- Noise with a lone `E4` inside and one at its end; two frames. -/
theorem witness_Noise : noSyncPair [0x00, 0xFF, 0xE4, 0x12, 0xEB, 0xE4] = true ∧
    (∀ x ∈ [(T1, F1), (T2, F2)], x.1.inRange = true ∧ frameEncode Config.hw tlmEntry (.telemetry x.1) = .ok x.2) ∧
    [(T1, F1), (T2, F2)] ≠ [] := by decide +kernel
theorem witness_GoodFrameAfterCorruptedFrame : F1bad.length = 32 ∧
    frameDecode Config.hw F1bad = .error ⟨.checksumMismatch, 0⟩ ∧ noSyncPair (F1bad.drop 1) = true ∧ T5.inRange = true ∧
    frameEncode Config.hw tlmEntry (.telemetry T5) = .ok F5 := by decide +kernel
theorem witness_EveryStepKeeps : QuiescentState { holding (F1.take 31) 7 with inputs := [.present (.request [0x0A, 0x53])] } ∧
    (stateOf (step { holding (F1.take 31) 7 with inputs := [.present (.request [0x0A, 0x53])] })).isSome = true :=
  ⟨F1_held, by decide +kernel⟩
theorem witness_StatusesOfEachOperation :
    (∃ t c, exec .crcRead .reset = .next t ∧ t.completion = some c ∧ c.status = .ok) ∧
    ∃ t c, exec (.pldDec []) .reset = .next t ∧ t.completion = some c ∧ c.status = .decodingLength :=
  ⟨⟨_, _, rfl, rfl, rfl⟩, _, _, rfl, rfl, rfl⟩
theorem witness_ErrorsLeaveTheStateAsItWas :
    ∃ t c, exec (.pldDec []) (holding [0xE4] 7) = .next t ∧ t.completion = some c ∧ c.status ≠ .ok :=
  ⟨_, _, rfl, rfl, by decide⟩
theorem witness_OnlyTheNamedOperationsWriteState : (∃ t, exec (.crcByte 1) (holding [0xE4] 7) = .next t) ∧
    Instr.writesAbuf (.crcByte 1) = false ∧ (∃ t, exec (.asmFeed [1]) (holding [0xE4] 7) = .next t) ∧
    Instr.writesCrcr (.asmFeed [1]) = false := ⟨⟨_, rfl⟩, rfl, ⟨_, rfl⟩, rfl⟩
theorem witness_CompletionsDependOnWhatIsRead :
    (∃ t t', exec (.frmDec F1) (holding [] 0) = .next t ∧ exec (.frmDec F1) (holding [0xE4] 7) = .next t') ∧
    Instr.readsNoState (.frmDec F1) = true ∧
    (∃ t t', exec (.asmFeed F1) (holding [0xE4] 0) = .next t ∧ exec (.asmFeed F1) (holding [0xE4] 7) = .next t') ∧
    (holding [0xE4] 0).abuf = (holding [0xE4] 7).abuf ∧ Instr.asmFeed F1 ≠ .crcRead ∧
    (∃ t t', exec .crcRead (holding [] 7) = .next t ∧ exec .crcRead (holding [0xE4] 7) = .next t') ∧
    (holding [] 7).crcr = (holding [0xE4] 7).crcr ∧ ∀ D, Instr.crcRead ≠ .asmFeed D :=
  ⟨⟨_, _, rfl, rfl⟩, rfl, ⟨_, _, rfl, rfl⟩, rfl, by decide, ⟨_, _, rfl, rfl⟩, rfl, fun _ h => by cases h⟩
/-- Two states with the same block, and otherwise different. -/
theorem witness_NothingButTheBlockSurvives : (holding [0xE4] 7).toBlock =
    ({ given .reset with abuf := [0xE4], crcr := 7, completion := completed (.word 1) } : State).toBlock ∧
    ∃ t cs, runOps [.asmFeed [0xEB], .crcRead] (holding [0xE4] 7) = .next (t, cs) := ⟨rfl, _, _, rfl⟩
/-- Two instances, each with an operation to do. -/
theorem witness_StepsOfDifferentInstancesCommute : (0 : Fin 2) ≠ 1 ∧
    ∃ u v, stepAt 0 (Vector.replicate 2 (given (.present (.request [0x04, 0x31])))) = .next u ∧ stepAt 1 u = .next v :=
  ⟨by decide, _, _, rfl, rfl⟩

end Witnesses

end Sys2Proof.Tests
end

namespace Sys2Proof.Machine

@[simp] theorem configHw_crc : Config.hw.crc = hwCrc := rfl

/-- Settles O1 (R20), by the reset laws of the two fields; this hardware's configuration is built with `hwCrc`. -/
theorem resetEmptiesBufferAndLoadsCrcInit : Obligations.ResetEmptiesBufferAndLoadsCrcInit := by
  refine ⟨reset_abuf, ?_⟩
  rw [configHw_crc]
  exact reset_crcr

end Sys2Proof.Machine

namespace Sys2Proof.Machine

/-! ### The registry of this hardware (30_encoding.md R47) -/

/-- The registry holds the telemetry entry and no other, so a lookup is a comparison with its key. -/
theorem configHw_lookup (cls id : Byte) :
    Config.hw.lookup cls id = if cls = tlmClass ∧ id = tlmId then some tlmEntry else none := by
  have hkey : (tlmEntry.cls == cls && tlmEntry.id == id) = decide (cls = tlmClass ∧ id = tlmId) := by
    simp [tlmEntry, eq_comm, beq_eq_decide]
  simp only [Config.lookup, Config.hw, List.find?_singleton, hkey, decide_eq_true_eq]

/-- Settles O33 (R47): the lookup compares a pair with the key `(0x05, 0x03)` of the one entry. -/
theorem onlyTelemetryIsRegistered : Obligations.OnlyTelemetryIsRegistered := by
  refine ⟨⟨tlmEntry, ?_, rfl, fun _ => rfl, fun _ => rfl⟩, fun cls id h => ?_⟩
  · exact (configHw_lookup _ _).trans (if_pos ⟨rfl, rfl⟩)
  · exact (configHw_lookup cls id).trans (if_neg h)

/-! ### The size of a frame (30_encoding.md R42) -/

/-- A frame is at least `MIN_FRAME` bytes, and the 16-bit length field bounds it above. -/
theorem frameSize_bounds (B : Bytes) (h : hdrLen ≤ B.length) : 8 ≤ frameSize B h ∧ frameSize B h ≤ 65543 := by
  have hlen : memRead B 4 2 (Nat.le_trans (by decide) h) < 256 ^ 2 := memRead_lt ..
  simp only [frameSize, hdrLen, cksLen]
  omega

/-- The size told from a header written out byte by byte. -/
theorem frameSize_header (b0 b1 b2 b3 b4 b5 : Byte) (body : Bytes)
    (h : hdrLen ≤ (b0 :: b1 :: b2 :: b3 :: b4 :: b5 :: body).length) :
    frameSize (b0 :: b1 :: b2 :: b3 :: b4 :: b5 :: body) h = 8 + (b4.toNat * 256 + b5.toNat) := by
  simp only [frameSize, memRead_eq, hdrLen, cksLen, List.drop_succ_cons, List.drop_zero, List.take_succ_cons, List.take_zero,
    beNat, List.length_cons, List.length_nil]
  omega

/-- The size told from a header whose length field was written by `be_2`. -/
theorem frameSize_be (b0 b1 b2 b3 : Byte) {n : Nat} (hn : n ≤ maxPayload) (body : Bytes)
    (h : hdrLen ≤ ([b0, b1, b2, b3] ++ be 2 n ++ body).length) :
    frameSize ([b0, b1, b2, b3] ++ be 2 n ++ body) h = hdrLen + n + cksLen := by
  have hfield : (([b0, b1, b2, b3] ++ be 2 n ++ body).drop 4).take 2 = be 2 n := by simp [be]
  have hmod : n % 256 ^ 2 = n := Nat.mod_eq_of_lt (Nat.lt_succ_of_le hn)
  rw [frameSize, memRead_eq, hfield, beNat_be, hmod]

/-- What `frame_wrap` builds when it answers: header, payload and checksum, of a payload that the length field can count
(42_framer.md R81). -/
theorem frameWrap_ok {p : CrcParams} {cls id : Byte} {P F : Bytes} (h : frameWrap p cls id P = .ok F) :
    P.length ≤ maxPayload ∧
      F = [sync1, sync2, cls, id] ++ be 2 P.length ++
        (P ++ be cksLen (crc16 p ([sync1, sync2, cls, id] ++ be 2 P.length ++ P)).toNat) := by
  unfold frameWrap at h
  split at h
  · cases h
  · next hlen =>
    cases h
    exact ⟨Nat.le_of_not_lt hlen, List.append_assoc ..⟩

/-- A frame that was built is delimited by its own header, whatever follows it. -/
theorem frameSize_frameWrap {p : CrcParams} {cls id : Byte} {P F : Bytes} (X : Bytes) (hF : frameWrap p cls id P = .ok F) :
    ∃ h : hdrLen ≤ (F ++ X).length, frameSize (F ++ X) h = F.length := by
  obtain ⟨hP, rfl⟩ := frameWrap_ok hF
  simp only [List.append_assoc _ _ X]
  refine ⟨by simp [hdrLen], ?_⟩
  rw [frameSize_be _ _ _ _ hP]
  simp [hdrLen]
  omega

/-- What `frame_decode` consumes is the size that the header tells. -/
theorem frameDecode_ok_frameSize {π : Type} {c : Config π} {B : Bytes} {p : π} {n : Nat}
    (hok : frameDecode c B = .ok (p, n)) :
    ∃ h : hdrLen ≤ B.length, n = frameSize B h := by
  have h6 : hdrLen ≤ B.length := (frameDecode_ok_size hok).1
  refine ⟨h6, ?_⟩
  obtain ⟨b0, b1, b2, b3, b4, b5, body, rfl⟩ := header_of_length h6
  rw [frameSize_header]
  rw [frameDecode_header] at hok
  repeat' split at hok
  all_goals cases hok
  rfl

/-- Settles O35 (R42): the bounds of the size, the frames that are built and the frames that are accepted. -/
theorem frameSizeIsTheFrameLength : Obligations.FrameSizeIsTheFrameLength :=
  ⟨frameSize_bounds, fun _ _ _ _ _ X h => frameSize_frameWrap X h, fun _ _ _ _ _ h => frameDecode_ok_frameSize h⟩

end Sys2Proof.Machine

namespace Sys2Proof.Machine

/-! ### What a layout row stores (30_encoding.md R44, R45) -/

/-- Two's complement is the residue modulo `2^N` (30_encoding.md R45). -/
theorem toUnsigned_eq_emod {N : Nat} (hN : 0 < N) {v : Int} (h : -(2 ^ (N - 1)) ≤ v ∧ v ≤ 2 ^ (N - 1) - 1) :
    toUnsigned N v = (v % 2 ^ N).toNat := by
  have hpow : (2 : Int) ^ N = 2 ^ (N - 1) * 2 := by rw [← pow_succ, Nat.sub_add_cancel hN]
  unfold toUnsigned
  split
  · rw [Int.emod_eq_of_lt (by omega) (by omega)]
  · rw [← Int.add_emod_right, Int.emod_eq_of_lt (by omega) (by omega)]

/-- Reading a signed number is the residue of least absolute value (30_encoding.md R45). -/
theorem toSigned_eq_bmod {N : Nat} (hN : 0 < N) {u : Nat} (h : u < 2 ^ N) : toSigned N u = Int.bmod u (2 ^ N) := by
  have hpow : 2 ^ N = 2 ^ (N - 1) * 2 := by rw [← pow_succ, Nat.sub_add_cancel hN]
  have hcast : (2 : Int) ^ N = ((2 ^ N : Nat) : Int) := by push_cast; rfl
  rw [Int.bmod_def, Int.emod_eq_of_lt (by omega) (by omega), toSigned, hcast]
  split <;> split <;> omega

/-- The unsigned number stored for a field in range fits the field's bytes. -/
theorem fieldToNat_lt {signed : Bool} {n : Nat} (hn : 0 < n) {v : Int} (h : fieldInRange signed n v = true) :
    fieldToNat signed n v < 256 ^ n := by
  rw [show 256 ^ n = 2 ^ (8 * n) from (pow_mul 2 8 n).symm]
  cases signed with
  | false =>
    have hv : 0 ≤ v ∧ v ≤ 2 ^ (8 * n) - 1 := of_decide_eq_true h
    have hcast : ((2 ^ (8 * n) : Nat) : Int) = 2 ^ (8 * n) := by push_cast; rfl
    simp only [fieldToNat, Bool.false_eq_true, if_false]
    omega
  | true => exact toUnsigned_lt (by omega) (of_decide_eq_true h)

/-- A field in range is read back from the unsigned number it is stored as. -/
theorem fieldOfNat_fieldToNat {signed : Bool} {n : Nat} (hn : 0 < n) {v : Int} (h : fieldInRange signed n v = true) :
    fieldOfNat signed n (fieldToNat signed n v) = v := by
  cases signed with
  | false =>
    have hv : 0 ≤ v ∧ v ≤ 2 ^ (8 * n) - 1 := of_decide_eq_true h
    exact Int.toNat_of_nonneg hv.1
  | true => exact toSigned_toUnsigned (by omega) (of_decide_eq_true h)

/-- A signed field in range is stored as its residue. -/
theorem fieldToNat_signed {n : Nat} (hn : 0 < n) {v : Int} (h : fieldInRange true n v = true) :
    fieldToNat true n v = (v % 2 ^ (8 * n)).toNat :=
  toUnsigned_eq_emod (by omega) (of_decide_eq_true h)

/-- A signed field read from memory is the residue of least absolute value. -/
theorem fieldOfNat_signed_memRead {n : Nat} (hn : 0 < n) (B : Bytes) (off : Nat) (h : off + n ≤ B.length) :
    fieldOfNat true n (memRead B off n h) = Int.bmod (beNat ((B.drop off).take n)) (2 ^ (8 * n)) := by
  have hlt : memRead B off n h < 2 ^ (8 * n) := by
    rw [pow_mul]; exact memRead_lt B off n h
  exact toSigned_eq_bmod (by omega) hlt

/-! ### Rows that tile a byte sequence -/

/-- The rows lie one behind the other, none empty, from offset `a` to offset `b`. -/
def Tiles (a b : Nat) : List LayoutRow → Prop
  | [] => a = b
  | row :: rows => row.offset = a ∧ 0 < row.size ∧ Tiles (a + row.size) b rows

/-- The layout tiles the 24 bytes of the payload (40_payload_codec.md R60). -/
theorem tlmLayout_tiles : Tiles 0 tlmLen tlmLayout := by simp [Tiles, tlmLayout, tlmLen]

theorem Tiles.le {b : Nat} : ∀ {rows : List LayoutRow} {a : Nat}, Tiles a b rows → a ≤ b
  | [], _, h => Nat.le_of_eq h
  | _ :: _, _, ⟨_, _, h⟩ => Nat.le_trans (Nat.le_add_right _ _) h.le

/-- The bytes in which a row stores its field of the record. -/
def LayoutRow.bytes (r : Record) (row : LayoutRow) : Bytes :=
  be row.size (fieldToNat row.signed row.size (row.field.get r))

@[simp] theorem LayoutRow.bytes_length (r : Record) (row : LayoutRow) : (row.bytes r).length = row.size := be_length ..

/-- A row that begins where `A` ends replaces the first bytes behind `A`. -/
theorem LayoutRow.write_append (r : Record) {row : LayoutRow} {A : Bytes} (h : row.offset = A.length) (Z : Bytes) :
    row.write r (A ++ Z) = (A ++ row.bytes r) ++ Z.drop row.size := by
  simp [LayoutRow.write, LayoutRow.bytes, memWrite, h]

/-- A row that begins where `A` ends, stored there and in range, is read back as the record's field. -/
theorem LayoutRow.read_append {r : Record} {row : LayoutRow} {A : Bytes} (hoff : row.offset = A.length)
    (hpos : 0 < row.size) (hin : row.inRange r = true) (Z : Bytes)
    (h : row.offset + row.size ≤ (A ++ (row.bytes r ++ Z)).length) :
    fieldOfNat row.signed row.size (memRead (A ++ (row.bytes r ++ Z)) row.offset row.size h) = row.field.get r := by
  have hbytes : ((A ++ (row.bytes r ++ Z)).drop row.offset).take row.size = row.bytes r := by
    rw [hoff, List.drop_left, List.take_left' (row.bytes_length r)]
  rw [memRead_eq, hbytes, LayoutRow.bytes, beNat_be, Nat.mod_eq_of_lt (fieldToNat_lt hpos hin),
    fieldOfNat_fieldToNat hpos hin]

/-- Writing rows that tile the bytes behind `A` replaces all of them by the stored fields. -/
theorem foldl_write_of_tiles (r : Record) : ∀ {rows : List LayoutRow} {A Z : Bytes},
    Tiles A.length (A ++ Z).length rows → rows.foldl (LayoutRow.write r) (A ++ Z) = A ++ rows.flatMap (LayoutRow.bytes r)
  | [], A, Z, h => by
    have hZ : Z = [] := by simpa [Tiles] using h
    simp [hZ]
  | row :: rows, A, Z, ⟨hoff, _, h⟩ => by
    have hle := h.le
    have hrest : Tiles (A ++ row.bytes r).length ((A ++ row.bytes r) ++ Z.drop row.size).length rows := by
      convert h using 1
      · simp
      · simp only [List.length_append, List.length_drop, LayoutRow.bytes_length] at hle ⊢
        omega
    rw [List.foldl_cons, LayoutRow.write_append r hoff, foldl_write_of_tiles r hrest, List.append_assoc, List.flatMap_cons]

/-- Decoding the stored fields of rows that tile the bytes behind `A` sets these fields of the record. -/
theorem decodeRows_of_tiles {r : Record} {b : Nat} : ∀ {rows : List LayoutRow} {A : Bytes} (acc : Record)
    (h : tlmLen ≤ (A ++ rows.flatMap (LayoutRow.bytes r)).length),
    Tiles A.length b rows → (∀ row ∈ rows, row.inRange r = true) →
    decodeRows (A ++ rows.flatMap (LayoutRow.bytes r)) h rows acc =
      rows.foldl (fun acc row => row.field.set acc (row.field.get r)) acc
  | [], _, _, _, _, _ => rfl
  | row :: rows, A, acc, h, ⟨hoff, hpos, htiles⟩, hin => by
    obtain ⟨hrow, hrows⟩ := List.forall_mem_cons.1 hin
    have hrest : Tiles (A ++ row.bytes r).length b rows := by simpa using htiles
    have hread := LayoutRow.read_append hoff hpos hrow (rows.flatMap (LayoutRow.bytes r))
      (Nat.le_trans row.fits h)
    have ih := fun acc h => decodeRows_of_tiles (A := A ++ row.bytes r) acc h hrest hrows
    simp only [List.append_assoc] at ih
    simp only [decodeRows, List.foldl_cons, List.flatMap_cons, hread]
    exact ih _ h

/-! ### `tlm_encode` and `tlm_decode` (40_payload_codec.md R61 to R63) -/

/-- The record is in range exactly when no field is the first one out of range. -/
theorem record_inRange_iff_firstOutOfRange (r : Record) : r.inRange = true ↔ r.firstOutOfRange = none := by
  simp [Record.inRange, Record.firstOutOfRange]

/-- A record is in range exactly when each row of the layout finds its field in range. -/
theorem record_inRange_iff_rows (r : Record) : r.inRange = true ↔ ∀ row ∈ tlmLayout, row.inRange r = true := by
  simp [Record.inRange, rangeChecks_eq]

/-- An in-range record is encoded as the stored fields, one behind the other. -/
theorem tlmEncode_eq_flatMap {r : Record} (h : r.inRange = true) :
    tlmEncode r = .ok (tlmLayout.flatMap (LayoutRow.bytes r)) := by
  have hwrite := foldl_write_of_tiles r (A := []) (Z := List.replicate tlmLen 0#8) tlmLayout_tiles
  rw [List.nil_append, List.nil_append] at hwrite
  rw [tlmEncode_inRange h, hwrite]

/-- The stored fields are 24 bytes. -/
theorem flatMap_bytes_length (r : Record) : (tlmLayout.flatMap (LayoutRow.bytes r)).length = tlmLen := by
  simp [tlmLayout, tlmLen]

/-- The stored fields of an in-range record, written out as R43 has them. -/
theorem flatMap_bytes_eq {r : Record} (h : r.inRange = true) :
    tlmLayout.flatMap (LayoutRow.bytes r) =
      be 1 r.version.toNat ++ be 8 r.time.toNat ++ be 4 (r.latitude % 2 ^ 32).toNat ++ be 4 (r.longitude % 2 ^ 32).toNat ++
        be 2 r.altitude.toNat ++ be 2 (r.heading % 2 ^ 16).toNat ++ be 2 r.voltage.toNat ++ be 1 r.fixType.toNat := by
  have hrows := (record_inRange_iff_rows r).1 h
  simp only [tlmLayout, List.forall_mem_cons] at hrows
  obtain ⟨-, -, hlat, hlon, -, hhead, -⟩ := hrows
  have elat : fieldToNat true 4 r.latitude = (r.latitude % 2 ^ 32).toNat := fieldToNat_signed (by decide) hlat
  have elon : fieldToNat true 4 r.longitude = (r.longitude % 2 ^ 32).toNat := fieldToNat_signed (by decide) hlon
  have ehead : fieldToNat true 2 r.heading = (r.heading % 2 ^ 16).toNat := fieldToNat_signed (by decide) hhead
  simp only [tlmLayout, List.flatMap_cons, List.flatMap_nil, LayoutRow.bytes, Field.get, elat, elon, ehead,
    List.append_assoc, List.append_nil]
  rfl

/-- Too few bytes for a record (40_payload_codec.md R62). -/
theorem tlmDecode_short {P : Bytes} (h : P.length < tlmLen) : tlmDecode P = .error ⟨.decodingLength, 0#16⟩ := dif_pos h

/-- With 24 bytes or more the rows are read. -/
theorem tlmDecode_ok {P : Bytes} (h : tlmLen ≤ P.length) :
    tlmDecode P = .ok (decodeRows P h tlmLayout ⟨0, 0, 0, 0, 0, 0, 0, 0⟩) :=
  dif_neg (Nat.not_lt.2 h)

/-- The record read by the rows of the layout, written out as R43 has it. -/
theorem decodeRows_tlmLayout (P : Bytes) (h : tlmLen ≤ P.length) (acc : Record) :
    decodeRows P h tlmLayout acc =
      { version := beNat (P.take 1)
        time := beNat ((P.drop 1).take 8)
        latitude := Int.bmod (beNat ((P.drop 9).take 4)) (2 ^ 32)
        longitude := Int.bmod (beNat ((P.drop 13).take 4)) (2 ^ 32)
        altitude := beNat ((P.drop 17).take 2)
        heading := Int.bmod (beNat ((P.drop 19).take 2)) (2 ^ 16)
        voltage := beNat ((P.drop 21).take 2)
        fixType := beNat ((P.drop 23).take 1) } := by
  simp only [decodeRows, tlmLayout, Field.set, fieldOfNat_signed_memRead, Nat.zero_lt_succ]
  rfl

/-- Setting every field of the layout to the record's field gives the record. -/
theorem foldl_set_tlmLayout (r acc : Record) :
    tlmLayout.foldl (fun acc row => row.field.set acc (row.field.get r)) acc = r := by
  simp only [tlmLayout, List.foldl_cons, List.foldl_nil, Field.set, Field.get]

/-- Decoding the stored fields of an in-range record gives the record back. -/
theorem tlmDecode_flatMap_bytes {r : Record} (h : r.inRange = true) :
    tlmDecode (tlmLayout.flatMap (LayoutRow.bytes r)) = .ok r := by
  have hlen := Nat.le_of_eq (flatMap_bytes_length r).symm
  have hdecode := fun acc => decodeRows_of_tiles (rows := tlmLayout) (A := []) acc hlen tlmLayout_tiles
    ((record_inRange_iff_rows r).1 h)
  simp only [List.nil_append, foldl_set_tlmLayout] at hdecode
  rw [tlmDecode_ok hlen, hdecode]

/-! ### `PLD.ENC` and `PLD.DEC` at the port -/

/-- `PLD.ENC` hands over the bytes that `tlm_encode` returns. -/
theorem exec_pldEnc_ok {r : Record} {P : Bytes} (h : tlmEncode r = .ok P) (s : State) :
    exec (.pldEnc r) s = .next { s with completion := completed (.bytes P) } :=
  congrArg Host.Outcome.next (deliver_finish_ok .bytes _ h)

/-- `PLD.ENC` hands over the error that `tlm_encode` raises. -/
theorem exec_pldEnc_error {r : Record} {e : Raised} (h : tlmEncode r = .error e) (s : State) :
    exec (.pldEnc r) s = .next { s with completion := failed (errorStatus e.name) e.info } :=
  congrArg Host.Outcome.next (deliver_finish_error .bytes _ h)

/-- `PLD.DEC` hands over the record that `tlm_decode` returns. -/
theorem exec_pldDec_ok {P : Bytes} {r : Record} (h : tlmDecode P = .ok r) (s : State) :
    exec (.pldDec P) s = .next { s with completion := completed (.record r) } :=
  congrArg Host.Outcome.next (deliver_finish_ok .record _ h)

/-- `PLD.DEC` hands over the error that `tlm_decode` raises. -/
theorem exec_pldDec_error {P : Bytes} {e : Raised} (h : tlmDecode P = .error e) (s : State) :
    exec (.pldDec P) s = .next { s with completion := failed (errorStatus e.name) e.info } :=
  congrArg Host.Outcome.next (deliver_finish_error .record _ h)

/-- Settles O13 (R61): an in-range record is stored row behind row; otherwise the first row out of range decides. -/
theorem pldEncReturnsTheLayoutOrTheFirstBadField : Obligations.PldEncReturnsTheLayoutOrTheFirstBadField := by
  refine fun r s => ⟨fun h => ?_, fun i h => ?_, record_inRange_iff_firstOutOfRange r⟩
  · exact exec_pldEnc_ok ((tlmEncode_eq_flatMap h).trans (congrArg Except.ok (flatMap_bytes_eq h))) s
  · exact exec_pldEnc_error (tlmEncode_error h) s

/-- Settles O14 (R62): the length decides, and each row is a big-endian read at its offset. -/
theorem pldDecReturnsTheRecordOrLengthError : Obligations.PldDecReturnsTheRecordOrLengthError := by
  refine fun P s => ⟨fun h => ?_, fun h => ?_⟩
  · exact exec_pldDec_error (tlmDecode_short h) s
  · exact exec_pldDec_ok ((tlmDecode_ok h).trans (congrArg Except.ok (decodeRows_tlmLayout P h _))) s

/-- Settles O15 (R63): the rows tile the 24 bytes, so each one reads back what it stored. -/
theorem payloadRoundTrip : Obligations.PayloadRoundTrip := fun r h =>
  ⟨_, tlmEncode_eq_flatMap h, flatMap_bytes_length r, tlmDecode_flatMap_bytes h⟩

end Sys2Proof.Machine

namespace Sys2Proof.Machine

/-! ### The streaming CRC port (41_crc16.md R75 to R77) -/

/-- An operation that ends without an error and leaves the block as it was changes only the completion. -/
theorem deliver_completeOk (s : State) (r : Result) :
    deliver s (completeOk s.toBlock r) = { s with completion := completed r } := rfl

/-- An operation that ends without an error and writes `CRCR` changes only `CRCR` and the completion. -/
theorem deliver_completeOk_writeCrcr (s : State) (v : Word) (r : Result) :
    deliver s (completeOk (writeCrcr s.toBlock v) r) = { s with crcr := v, completion := completed r } := rfl

/-- `CRC.INIT` (R75). -/
theorem exec_crcInit (s : State) :
    exec .crcInit s = .next { s with crcr := hwCrc.init, completion := completed .none } :=
  congrArg Host.Outcome.next (deliver_completeOk_writeCrcr s hwCrc.init .none)

/-- `CRC.BYTE b` (R76). -/
theorem exec_crcByte (b : Byte) (s : State) :
    exec (.crcByte b) s = .next { s with crcr := crcStep hwCrc s.crcr b, completion := completed .none } :=
  congrArg Host.Outcome.next (deliver_completeOk_writeCrcr s (crcStep hwCrc s.crcr b) .none)

/-- `CRC.READ` (R77). -/
theorem exec_crcRead (s : State) :
    exec .crcRead s = .next { s with completion := completed (.word (crcFinal hwCrc s.crcr)) } :=
  congrArg Host.Outcome.next (deliver_completeOk s (.word (crcFinal hwCrc s.crcr)))

/-- Settles O18 (R75 to R77): the next states of the three operations, for this hardware's parameter set. -/
theorem streamingCrcPortOperations : Obligations.StreamingCrcPortOperations := by
  intro s b
  rw [configHw_crc]
  exact ⟨exec_crcInit s, exec_crcByte b s, exec_crcRead s⟩

end Sys2Proof.Machine

namespace Sys2Proof.Machine

/-! ### The two bytes of a 16-bit field (20_memory.md R26) -/

/-- `be_2` keeps the low 16 bits of its argument, the more significant byte first. -/
theorem be_two (n : Nat) : be 2 n = wordBytes (BitVec.ofNat 16 n) := by
  have hhigh : BitVec.ofNat 8 (n / 256) = (BitVec.ofNat 16 n).extractLsb' 8 8 := by
    apply BitVec.eq_of_toNat_eq
    simp only [BitVec.toNat_ofNat, BitVec.extractLsb'_toNat, Nat.shiftRight_eq_div_pow]
    omega
  have hlow : BitVec.ofNat 8 n = (BitVec.ofNat 16 n).extractLsb' 0 8 := by
    apply BitVec.eq_of_toNat_eq
    simp only [BitVec.toNat_ofNat, BitVec.extractLsb'_toNat, Nat.shiftRight_zero]
    omega
  simp only [be, wordBytes, pow_one, pow_zero, Nat.div_one, hhigh, hlow]

/-- The bytes of a checksum are those of the word. -/
theorem be_two_toNat (w : Word) : be 2 w.toNat = wordBytes w := by rw [be_two, BitVec.ofNat_toNat, BitVec.setWidth_eq]

/-- The information word of `UnknownPayloadTypeError` is the pair, class in the upper byte (60_exceptions.md R114). -/
theorem kindInfo_eq_append (cls id : Byte) : kindInfo cls id = cls ++ id := by
  have hcls := cls.isLt
  have hid := id.isLt
  apply BitVec.eq_of_toNat_eq
  simp only [kindInfo, BitVec.toNat_ofNat, toNat_append_mul]
  omega

/-! ### Building a frame (42_framer.md R81, R84) -/

/-- The frame around a payload that the length field can count. -/
theorem frameWrap_of_le (p : CrcParams) (cls id : Byte) {P : Bytes} (h : P.length ≤ maxPayload) :
    frameWrap p cls id P =
      .ok ([sync1, sync2, cls, id] ++ wordBytes (BitVec.ofNat 16 P.length) ++ P ++
        wordBytes (crc16 p ([sync1, sync2, cls, id] ++ wordBytes (BitVec.ofNat 16 P.length) ++ P))) := by
  rw [frameWrap, if_neg (Nat.not_lt.2 h)]
  simp only [cksLen, be_two_toNat, be_two P.length]

/-- A payload that the length field cannot count. -/
theorem frameWrap_too_long (p : CrcParams) (cls id : Byte) {P : Bytes} (h : maxPayload < P.length) :
    frameWrap p cls id P = .error ⟨.encodingRange, 8#16⟩ := if_pos h

section Encode
variable {π : Type} {e : Entry π} {x : π}

/-- A payload that its encoder accepts is wrapped under the key of its kind. -/
theorem frameEncode_of_enc_ok (c : Config π) {P : Bytes} (h : e.enc x = .ok P) :
    frameEncode c e x = frameWrap c.crc e.cls e.id P := by rw [frameEncode, h]

/-- The payload encoder's error is the framer's. -/
theorem frameEncode_of_enc_error (c : Config π) {r : Raised} (h : e.enc x = .error r) : frameEncode c e x = .error r := by
  rw [frameEncode, h]

end Encode

/-! ### The checks of `frame_decode`, one by one (42_framer.md R83) -/

section Checks
variable {π : Type} {c : Config π} {e : Entry π} {N : Nat}

/-- Check (b): a sync byte is wrong. -/
theorem frameDecode_bad_sync {b0 b1 : Byte} (b2 b3 b4 b5 : Byte) (body : Bytes) (h : ¬ (b0 = sync1 ∧ b1 = sync2)) :
    frameDecode c (b0 :: b1 :: b2 :: b3 :: b4 :: b5 :: body) = .error ⟨.frameSync, 0#16⟩ := by
  rw [frameDecode_header, if_pos (not_and_or.1 h)]

/-- Check (c): the pair is not registered. -/
theorem frameDecode_unregistered {cls id : Byte} (b4 b5 : Byte) (body : Bytes) (h : c.lookup cls id = none) :
    frameDecode c (sync1 :: sync2 :: cls :: id :: b4 :: b5 :: body) = .error ⟨.unknownPayloadType, cls ++ id⟩ := by
  rw [frameDecode_header, if_neg (by simp), h, kindInfo_eq_append]

/-- Check (L): under `STRICT`, a length other than the expected one. -/
theorem frameDecode_wrong_length {cls id b4 b5 : Byte} (body : Bytes) (he : c.lookup cls id = some e)
    (hc : c.lenCheck = .strict) (h : b4.toNat * 256 + b5.toNat ≠ e.explen) :
    frameDecode c (sync1 :: sync2 :: cls :: id :: b4 :: b5 :: body) = .error ⟨.decodingLength, 0#16⟩ := by
  rw [frameDecode_header, if_neg (by simp), he]
  exact if_pos ⟨hc, h⟩

/-- Checks (d) and (e) and the payload decoder, on a header that passes (b), (c) and (L) with the length `N`. -/
theorem frameDecode_after_length_check {cls id b4 b5 : Byte} (body : Bytes) (he : c.lookup cls id = some e)
    (hN : b4.toNat * 256 + b5.toNat = N) (hL : c.lenCheck = .strict → N = e.explen) :
    let B := sync1 :: sync2 :: cls :: id :: b4 :: b5 :: body
    (B.length < 8 + N → frameDecode c B = .error ⟨.frameTruncated, 0#16⟩) ∧
    (8 + N ≤ B.length →
      (beNat ((B.drop (6 + N)).take 2) ≠ (crc16 c.crc (B.take (6 + N))).toNat →
        frameDecode c B = .error ⟨.checksumMismatch, 0#16⟩) ∧
      (beNat ((B.drop (6 + N)).take 2) = (crc16 c.crc (B.take (6 + N))).toNat →
        frameDecode c B = (e.dec ((B.take (6 + N)).drop 6)).map fun p => (p, 8 + N))) := by
  intro B
  have hlength : B.length = body.length + 6 := rfl
  have htake : B.take (6 + N) = sync1 :: sync2 :: cls :: id :: b4 :: b5 :: body.take N := by simp [B, Nat.add_comm 6 N]
  have hdrop : B.drop (6 + N) = body.drop N := by simp [B, Nat.add_comm 6 N]
  have hsync : ¬ (sync1 ≠ sync1 ∨ sync2 ≠ sync2) := by decide
  have hpass : ¬ (c.lenCheck = .strict ∧ N ≠ e.explen) := fun h => h.2 (hL h.1)
  simp only [htake, hdrop, List.drop_succ_cons, List.drop_zero]
  rw [frameDecode_header, if_neg hsync, he, hN]
  refine ⟨fun hshort => ?_, fun hlong => ⟨fun hbad => ?_, fun hgood => ?_⟩⟩
  · exact (if_neg hpass).trans (if_pos (by omega))
  · exact (if_neg hpass).trans ((if_neg (by omega)).trans (if_pos hbad.symm))
  · refine (if_neg hpass).trans ((if_neg (by omega)).trans ((if_neg (not_not.2 hgood.symm)).trans ?_))
    cases e.dec (body.take N) <;> rfl

end Checks

/-! ### The telemetry decoder behind a longer length (42_framer.md R86) -/

/-- The rows read only the first 24 bytes. -/
theorem decodeRows_append (P X : Bytes) (h : tlmLen ≤ P.length) (h' : tlmLen ≤ (P ++ X).length) :
    ∀ (rows : List LayoutRow) (acc : Record), decodeRows (P ++ X) h' rows acc = decodeRows P h rows acc
  | [], _ => rfl
  | row :: rows, acc => by
    simp only [decodeRows, memRead_append P X row.offset row.size (Nat.le_trans row.fits h)]
    exact decodeRows_append P X h h' rows _

/-- Bytes behind a whole payload do not change the record (40_payload_codec.md R62). -/
theorem tlmDecode_append {P : Bytes} (X : Bytes) (h : tlmLen ≤ P.length) : tlmDecode (P ++ X) = tlmDecode P := by
  have h' : tlmLen ≤ (P ++ X).length := by simp only [List.length_append]; omega
  rw [tlmDecode_ok h, tlmDecode_ok h', decodeRows_append P X h h']

/-- Of a payload of 24 bytes or more the first 24 are decoded. -/
theorem tlmDecode_take {P : Bytes} {n : Nat} (hn : tlmLen ≤ n) (h : tlmLen ≤ P.length) :
    tlmDecode (P.take n) = tlmDecode (P.take tlmLen) := by
  have hlen : tlmLen ≤ (P.take tlmLen).length := by simp [h]
  rw [← List.take_append_drop tlmLen (P.take n), List.take_take, Nat.min_eq_left hn, tlmDecode_append _ hlen]

/-- The telemetry key is registered under every CRC parameter set and either value of `LEN_CHECK`. -/
theorem hwWith_lookup (p : CrcParams) (l : LenCheck) : (Config.hwWith p l).lookup tlmClass tlmId = some tlmEntry :=
  (configHw_lookup _ _).trans (if_pos ⟨rfl, rfl⟩)

/-- The decoder of the telemetry entry is `tlm_decode`, its record tagged with the kind (42_framer.md R80). -/
theorem tlmEntry_dec (P : Bytes) : tlmEntry.dec P = (tlmDecode P).map Payload.telemetry := rfl

/-! ### `FRM.WRAP` and `FRM.ENC` at the port -/

/-- `FRM.WRAP` hands over the frame that `frame_wrap` returns. -/
theorem exec_frmWrap_ok {cls id : Byte} {P F : Bytes} (h : frameWrap hwCrc cls id P = .ok F) (s : State) :
    exec (.frmWrap cls id P) s = .next { s with completion := completed (.bytes F) } :=
  congrArg Host.Outcome.next (deliver_finish_ok .bytes _ h)

/-- `FRM.WRAP` hands over the error that `frame_wrap` raises. -/
theorem exec_frmWrap_error {cls id : Byte} {P : Bytes} {e : Raised} (h : frameWrap hwCrc cls id P = .error e) (s : State) :
    exec (.frmWrap cls id P) s = .next { s with completion := failed (errorStatus e.name) e.info } :=
  congrArg Host.Outcome.next (deliver_finish_error .bytes _ h)

/-- `FRM.ENC` hands over the frame that the encode half of the framer returns. -/
theorem exec_frmEnc_ok {p : Payload} {F : Bytes} (h : frameEncode Config.hw p.entry p = .ok F) (s : State) :
    exec (.frmEnc p) s = .next { s with completion := completed (.bytes F) } :=
  congrArg Host.Outcome.next (deliver_finish_ok .bytes _ h)

/-- `FRM.ENC` hands over the error that the encode half of the framer raises. -/
theorem exec_frmEnc_error {p : Payload} {e : Raised} (h : frameEncode Config.hw p.entry p = .error e) (s : State) :
    exec (.frmEnc p) s = .next { s with completion := failed (errorStatus e.name) e.info } :=
  congrArg Host.Outcome.next (deliver_finish_error .bytes _ h)

/-- Settles O24 (R84): the encoded record is 24 bytes, so the frame around it has the length field `00 18`. -/
theorem frmEncBuildsTheTelemetryFrame : Obligations.FrmEncBuildsTheTelemetryFrame := by
  refine fun r s => ⟨fun h => ?_, fun i h => ?_⟩
  · have henc := tlmEncode_eq_flatMap h
    have hlen := flatMap_bytes_length r
    refine ⟨_, henc, hlen, exec_frmEnc_ok ?_ s⟩
    have hmax : (tlmLayout.flatMap (LayoutRow.bytes r)).length ≤ maxPayload := by rw [hlen]; decide
    have hfield : wordBytes (BitVec.ofNat 16 tlmLen) = [0x00#8, 0x18#8] := by decide
    have hwrap := frameWrap_of_le hwCrc tlmClass tlmId hmax
    rw [hlen, hfield] at hwrap
    exact (frameEncode_of_enc_ok Config.hw henc).trans hwrap
  · exact exec_frmEnc_error (frameEncode_of_enc_error Config.hw (tlmEncode_error h)) s

/-- Settles O25 (R83): the laws of the single checks, in their order. -/
theorem frameDecodeChecksInOrder : Obligations.FrameDecodeChecksInOrder := by
  refine fun π c => ⟨fun B => frameDecode_short c, fun b0 b1 b2 b3 b4 b5 body => ⟨frameDecode_bad_sync _ _ _ _ _, ?_⟩⟩
  rintro rfl rfl
  exact ⟨frameDecode_unregistered _ _ _, fun e he =>
    ⟨frameDecode_wrong_length body he, frameDecode_after_length_check body he rfl⟩⟩

/-- Settles O28 (R86): check (L) under `STRICT`; under `TRUST` it passes, and the payload decoder judges the length from the
first 24 bytes. -/
theorem payloadLengthChecker : Obligations.PayloadLengthChecker := by
  intro p b4 b5 body B N
  obtain ⟨hshort, hwhole⟩ :=
    frameDecode_after_length_check (c := Config.hwWith p .trust) (N := N) body (hwWith_lookup p .trust) rfl nofun
  refine ⟨frameDecode_wrong_length body (hwWith_lookup p .strict) rfl, hshort,
    fun hlong => ⟨(hwhole hlong).1, fun hgood => ?_⟩⟩
  have hbody : N + 2 ≤ body.length := by simp only [B, List.length_cons] at hlong; omega
  have hpayload : (B.take (6 + N)).drop 6 = body.take N := by simp [B, Nat.add_comm 6 N]
  have hdec : frameDecode (Config.hwWith p .trust) B =
      (tlmEntry.dec ((B.take (6 + N)).drop 6)).map fun x => (x, 8 + N) := (hwhole hlong).2 hgood
  rw [hpayload, tlmEntry_dec] at hdec
  refine ⟨fun hN => ?_, fun hN => ?_⟩
  · have hjudged : tlmDecode (body.take N) = .error ⟨.decodingLength, 0#16⟩ :=
      tlmDecode_short (Nat.lt_of_le_of_lt (List.length_take_le ..) hN)
    rw [hdec, hjudged]
    rfl
  · have hlen : tlmLen ≤ body.length := Nat.le_trans hN (Nat.le_of_add_right_le hbody)
    have hrecord := tlmDecode_ok (P := body.take tlmLen) (by simp [hlen])
    rw [tlmDecode_take hN hlen, hrecord] at hdec
    exact ⟨_, hrecord, hdec⟩

/-- Settles O23 (R81, R82): `frame_wrap` on both sides of the length that the field can count. -/
theorem frmWrapBuildsTheFrame : Obligations.FrmWrapBuildsTheFrame := by
  exact fun cls id P s => ⟨fun h => exec_frmWrap_ok (frameWrap_of_le hwCrc cls id h) s,
    fun h => exec_frmWrap_error (frameWrap_too_long hwCrc cls id h) s⟩

end Sys2Proof.Machine

namespace Sys2Proof.Machine

/-! ### `ASM.CLR` (43_assembler.md R99) -/

/-- An operation that ends without an error and writes `abuf` changes only `abuf` and the completion. -/
theorem deliver_completeOk_writeAbuf (s : State) (B : Bytes) (r : Result) :
    deliver s (completeOk (writeAbuf s.toBlock B) r) = { s with abuf := B, completion := completed r } := rfl

/-- Settles O37 (R99): the operation writes `abuf` and ends without an error. -/
theorem asmClrEmptiesTheBuffer : Obligations.AsmClrEmptiesTheBuffer :=
  fun s => congrArg Host.Outcome.next (deliver_completeOk_writeAbuf s [] .none)

/-! ### The errors of `frame_decode` behind a sync pair (42_framer.md R83) -/

section Drain
variable {π : Type} {c : Config π}

/-- An entry that the lookup finds stands in the registry. -/
theorem mem_registry_of_lookup {cls id : Byte} {en : Entry π} (h : c.lookup cls id = some en) : en ∈ c.registry :=
  List.mem_of_find?_eq_some h

/-- A candidate frame that begins with the sync pair fails a check other than (b), or in a registered payload decoder. -/
theorem frameDecode_synced_error {t : Bytes} {e : Raised} (h : frameDecode c (sync1 :: sync2 :: t) = .error e) :
    e.name = .unknownPayloadType ∨ e = ⟨.decodingLength, 0#16⟩ ∨ e = ⟨.frameTruncated, 0#16⟩ ∨
      e = ⟨.checksumMismatch, 0#16⟩ ∨ ∃ en ∈ c.registry, ∃ P, en.dec P = .error e := by
  by_cases hlen : 6 ≤ (sync1 :: sync2 :: t).length
  · obtain ⟨_, _, b2, b3, b4, b5, body, hB⟩ := header_of_length hlen
    cases hB
    rw [frameDecode_header, if_neg (by simp)] at h
    split at h
    · cases h
      exact .inl rfl
    next en hen =>
      split at h
      · cases h
        exact .inr (.inl rfl)
      split at h
      · cases h
        exact .inr (.inr (.inl rfl))
      split at h
      · cases h
        exact .inr (.inr (.inr (.inl rfl)))
      split at h
      · next x hx =>
        cases h
        exact .inr (.inr (.inr (.inr ⟨en, mem_registry_of_lookup hen, _, hx⟩)))
      · cases h
  · cases h.symm.trans (frameDecode_short c (Nat.lt_of_not_le hlen))
    exact .inr (.inr (.inl rfl))

/-- With a lawful registry `FrameSyncError` is no outcome behind a sync pair (43_assembler.md R97 point 4). -/
theorem frameDecode_synced_error_ne_frameSync (hc : c.Lawful) {t : Bytes} {e : Raised}
    (h : frameDecode c (sync1 :: sync2 :: t) = .error e) : e.name ≠ .frameSync := by
  obtain hname | rfl | rfl | rfl | ⟨en, hen, P, hdec⟩ := frameDecode_synced_error h
  · simp [hname]
  · decide
  · decide
  · decide
  · rw [(hc.2 en hen).dec_error P e hdec]
    decide

/-! ### What one pass of the drain loop decides (43_assembler.md R97, R103) -/

/-- A byte that is not the first sync byte cannot start a frame. -/
theorem asmPass_ne_sync1 {b : Byte} (t : Bytes) (h : b ≠ sync1) : asmPass c (b :: t) = .discard :=
  if_pos ⟨Nat.le_add_left 1 _, by simpa using h⟩

/-- Behind a first sync byte the scan looks for the second. -/
theorem asmPass_ne_sync2 {b : Byte} (t : Bytes) (h : b ≠ sync2) : asmPass c (sync1 :: b :: t) = .discard := by
  simp [asmPass, h]

/-- A lone first sync byte may be the start of a frame. -/
theorem asmPass_lone_sync1 : asmPass c [sync1] = .wait := by simp [asmPass, hdrLen]

/-- A frame that is accepted behind the sync pair is emitted. -/
theorem asmPass_of_accepted {t : Bytes} {p : π} {n : Nat} (h : frameDecode c (sync1 :: sync2 :: t) = .ok (p, n)) :
    asmPass c (sync1 :: sync2 :: t) = .emit p n := by
  have hlen := (frameDecode_ok_size h).1
  simp only [List.length_cons] at hlen
  have hheader : ¬ t.length + 1 + 1 < 6 := by omega
  simp [asmPass, hdrLen, h, hheader]

/-- A truncated candidate frame, be it too short for a header, waits for more bytes. -/
theorem asmPass_of_truncated {t : Bytes} {e : Raised} (h : frameDecode c (sync1 :: sync2 :: t) = .error e)
    (he : e.name = .frameTruncated) : asmPass c (sync1 :: sync2 :: t) = .wait := by
  simp [asmPass, h, he]

/-- A candidate frame rejected for any other reason costs its first byte. -/
theorem asmPass_of_rejected {t : Bytes} {e : Raised} (h : frameDecode c (sync1 :: sync2 :: t) = .error e)
    (he : e.name ≠ .frameTruncated) : asmPass c (sync1 :: sync2 :: t) = .drop e := by
  have hheader : ¬ t.length + 1 + 1 < 6 := fun hlen => by
    cases h.symm.trans (frameDecode_short c hlen)
    exact he rfl
  simp [asmPass, hdrLen, h, he, hheader]

/-- A sync pair without a whole header behind it waits for more bytes. -/
theorem asmPass_without_header {t : Bytes} (h : t.length < 4) : asmPass c (sync1 :: sync2 :: t) = .wait :=
  asmPass_of_truncated (frameDecode_short c (by simp only [List.length_cons]; omega)) rfl

end Drain

/-- Settles O38 (R97, R103): each clause is one decision of a pass and what the loop does with it. -/
theorem drainLoopOutcomes : Obligations.DrainLoopOutcomes := by
  refine fun π c => ⟨rfl, fun b t h => ?noise, fun b t h => ?noPair, ?lone, fun t h => ?noHeader, fun t _ =>
    ⟨fun p n h => ?accepted, fun e h => ⟨fun he => ?truncated, fun he => ?rejected, fun hc => ?noSyncError⟩⟩⟩
  case noise => exact asmDrain_discard (asmPass_ne_sync1 t h)
  case noPair => exact asmDrain_discard (asmPass_ne_sync2 t h)
  case lone => exact asmDrain_wait asmPass_lone_sync1
  case noHeader => exact asmDrain_wait (asmPass_without_header h)
  case accepted => exact asmDrain_emit (asmPass_of_accepted h)
  case truncated => exact asmDrain_wait (asmPass_of_truncated h he)
  case rejected => exact asmDrain_drop (asmPass_of_rejected h he)
  case noSyncError => exact frameDecode_synced_error_ne_frameSync hc h

end Sys2Proof.Machine

namespace Sys2Proof.Machine

/-! ### The bytes of a 16-bit field, read and written (20_memory.md R26) -/

/-- The two bytes of a word, side by side, are the word. -/
theorem wordBytes_append (w : Word) : w.extractLsb' 8 8 ++ w.extractLsb' 0 8 = w := by
  rw [BitVec.extractLsb'_append_extractLsb'_eq_extractLsb' (by decide), BitVec.extractLsb'_eq_self]

/-- The two bytes of a word made of two bytes. -/
theorem wordBytes_of_append (b b' : Byte) : wordBytes (b ++ b') = [b, b'] := by
  rw [wordBytes, extractLsb'_append_high, extractLsb'_append_low]

end Sys2Proof.Machine

namespace Sys2Proof
open Sys2Proof.Machine

/-! ### The request and frame formats in both directions (30_encoding.md R41, R51; log entries 2 and 3) -/

/-- An operation without an operand has one carrier. -/
theorem noOperand_eq_ok {i i' : Instr} {operand : Bytes} (h : noOperand i operand = .ok i') : operand = [] ∧ i' = i := by
  cases operand with
  | nil => cases h; exact ⟨rfl, rfl⟩
  | cons b t => cases h

/-- The candidate frame of a telemetry header, its length field written out byte by byte. -/
theorem encode_telemetry (len : Word) (body : Bytes) :
    encode (.telemetry len body) =
      .frame (sync1 :: sync2 :: tlmClass :: tlmId :: len.extractLsb' 8 8 :: len.extractLsb' 0 8 :: body) := by
  rw [encode, be_two_toNat]; rfl

/-- Settles O7: the operand laws under the operation that the first byte selects; a frame by the fields of its header. -/
theorem decodeUndoesEncode : Obligations.DecodeUndoesEncode := by
  intro i
  cases i with
  | pldEnc r => rw [encode, decode_request, decodeOp, decodeRecord_encodeRecord]; rfl
  | pldDec P => exact decode_request .pldDec P
  | crcInit => exact decode_request .crcInit []
  | crcByte b => exact decode_request .crcByte [b]
  | crcRead => exact decode_request .crcRead []
  | crcBlk B => exact decode_request .crcBlk B
  | frmWrap cls id P => exact decode_request .frmWrap (cls :: id :: P)
  | frmEnc p =>
    obtain ⟨r⟩ := p
    rw [encode, decode_request, decodeOp, if_pos rfl, decodeRecord_encodeRecord]; rfl
  | frmDec B => exact decode_request .frmDec B
  | asmFeed D => exact decode_request .asmFeed D
  | asmClr => exact decode_request .asmClr []
  | telemetry len body =>
    have hsync : ¬¬(sync1 = sync1 ∧ sync2 = sync2) := by decide
    have hkind : ¬¬(tlmClass = tlmClass ∧ tlmId = tlmId) := by decide
    rw [encode_telemetry, decode, decodeFrame_header, if_neg hsync, if_neg hkind, wordBytes_append]

/-- A record operand under a constructor of `Instr` comes from the record's bytes. -/
theorem decodeRecord_map_eq_ok {B : Bytes} {mk : Record → Instr} {i : Instr} (h : (decodeRecord B).map mk = .ok i) :
    ∃ r, i = mk r ∧ B = encodeRecord r := by
  cases hr : decodeRecord B with
  | error e => rw [hr] at h; cases h
  | ok r => rw [hr] at h; cases h; exact ⟨r, rfl, (encodeRecord_decodeRecord hr).symm⟩

/-- An operation and its operand bytes are the encoding of what they decode to. -/
theorem encode_of_decodeOp {op : Op} {operand : Bytes} {i : Instr} (h : decodeOp op operand = .ok i) :
    encode i = op.request operand := by
  cases op with
  | pldEnc => obtain ⟨r, rfl, rfl⟩ := decodeRecord_map_eq_ok h; rfl
  | pldDec => cases h; rfl
  | crcInit => obtain ⟨rfl, rfl⟩ := noOperand_eq_ok h; rfl
  | crcByte =>
    cases operand with
    | nil => cases h
    | cons b rest => obtain ⟨rfl, rfl⟩ := noOperand_eq_ok h; rfl
  | crcRead => obtain ⟨rfl, rfl⟩ := noOperand_eq_ok h; rfl
  | crcBlk => cases h; rfl
  | frmWrap =>
    match operand, h with
    | cls :: id :: P, h => cases h; rfl
  | frmEnc =>
    cases operand with
    | nil => cases h
    | cons k rest =>
      rw [decodeOp] at h
      split at h
      · next hk =>
        subst hk
        obtain ⟨r, rfl, rfl⟩ := decodeRecord_map_eq_ok h; rfl
      · cases h
  | frmDec => cases h; rfl
  | asmFeed => cases h; rfl
  | asmClr => obtain ⟨rfl, rfl⟩ := noOperand_eq_ok h; rfl

/-- A first byte with bits 7..4 clear holds nothing but its `op` code (R51). -/
theorem setWidth_opCode {b : Byte} (h : ¬ 16 ≤ b.toNat) : (b.setWidth 4).setWidth 8 = b := by
  apply BitVec.eq_of_toNat_eq
  simp only [BitVec.toNat_setWidth]
  omega

/-- A request is the encoding of what it decodes to. -/
theorem encode_of_decodeRequest {B : Bytes} {i : Instr} (h : decodeRequest B = .ok i) : encode i = .request B := by
  cases B with
  | nil => cases h
  | cons b operand =>
    rw [decodeRequest] at h
    split at h
    · cases h
    · next hb =>
      split at h
      · cases h
      · next op hop =>
        rw [encode_of_decodeOp h, Op.request, code_ofCode hop, setWidth_opCode hb]

/-- A candidate frame that is too short for a header is check (a) of R83. -/
theorem decodeFrame_short {B : Bytes} (h : B.length < 6) : decodeFrame B = .error (.raised ⟨.frameTruncated, 0#16⟩) :=
  if_pos h

/-- A candidate frame is the encoding of what it decodes to. -/
theorem encode_of_decodeFrame {B : Bytes} {i : Instr} (h : decodeFrame B = .ok i) : encode i = .frame B := by
  by_cases h6 : B.length < 6
  · cases (decodeFrame_short h6).symm.trans h
  · obtain ⟨b0, b1, b2, b3, b4, b5, body, rfl⟩ := header_of_length (Nat.le_of_not_lt h6)
    rw [decodeFrame_header] at h
    split at h
    · cases h
    · split at h
      · cases h
      · next hsync hkind =>
        obtain ⟨rfl, rfl⟩ := not_not.1 hsync
        obtain ⟨rfl, rfl⟩ := not_not.1 hkind
        cases h
        rw [encode_telemetry, extractLsb'_append_high, extractLsb'_append_low]

/-- Settles O8: one case for each of the two carriers. -/
theorem encodeUndoesDecode : Obligations.EncodeUndoesDecode := by
  intro c i h
  cases c with
  | request B => exact encode_of_decodeRequest h
  | frame B => exact encode_of_decodeFrame h

/-! ### The header word (30_encoding.md R41) -/

/-- Settles O10: the header word is its six bytes side by side; a slice is a digit of its value, and the mask leaves the
first four bytes. -/
theorem headerWordFields : Obligations.HeaderWordFields := by
  intro b0 b1 b2 b3 b4 b5 body B H
  have hH : H = (b0 ++ b1) ++ ((b2 ++ b3) ++ (b4 ++ b5)) := headerWord_cons b0 b1 b2 b3 b4 b5 body
  have hpattern : (0xE4EB05030000#48 : BitVec 48) = (0xE4#8 ++ 0xEB#8) ++ ((0x05#8 ++ 0x03#8) ++ 0#16) := by decide
  refine ⟨?_, ?_, ?_, ?_, ?_, ?mask⟩
  case mask =>
    rw [hH, headerWord_masked, hpattern, append_inj, append_inj, append_inj, append_inj]
    simp only [and_true, and_assoc]
    rfl
  all_goals
    apply BitVec.eq_of_toNat_eq
    simp only [hH, BitVec.extractLsb'_toNat, toNat_append_mul, Nat.shiftRight_eq_div_pow]
    omega

/-! ### A candidate frame presented as it stands (30_encoding.md R56; log entry 3) -/

/-- A step on a candidate frame that decodes to no instruction. -/
theorem step_of_decode_raised {s : State} {c : Carrier} {rest : List Input} {e : Raised} (hs : s.inputs = .present c :: rest)
    (hc : decode c = .error (.raised e)) :
    step s = .next { s with inputs := rest, completion := failed (errorStatus e.name) e.info } := by
  rw [step, fetch_present hs]
  simp only [hc]
  rfl

/-- Settles O4: the step takes the input and dispatches on what it decodes to. -/
theorem stepRunsTheDecodedInstruction : Obligations.StepRunsTheDecodedInstruction := by
  intro s c rest i hs hi
  rw [step, fetch_present hs]
  simp only [hi]

/-- `FRM.DEC` hands over the error that `frame_decode` raises. -/
theorem exec_frmDec_error {B : Bytes} {e : Raised} (h : frameDecode Config.hw B = .error e) (s : State) :
    exec (.frmDec B) s = .next { s with completion := failed (errorStatus e.name) e.info } :=
  congrArg Host.Outcome.next (deliver_finish_error frameResult _ h)

/-- `FRM.DEC` hands over the payload and the count that `frame_decode` returns. -/
theorem exec_frmDec_ok {B : Bytes} {x : Payload × Nat} (h : frameDecode Config.hw B = .ok x) (s : State) :
    exec (.frmDec B) s = .next { s with completion := completed (.frame x.1 x.2) } :=
  congrArg Host.Outcome.next (deliver_finish_ok frameResult _ h)

/-- Settles O11: the table decoder raises what checks (a), (b) and (c) raise, and what passes them is the frame of a
`TELEMETRY` instruction. -/
theorem presentedFrameEndsAsFrmDec : Obligations.PresentedFrameEndsAsFrmDec := by
  intro s B rest hs
  have of_raised : ∀ e, decodeFrame B = .error (.raised e) → frameDecode Config.hw B = .error e →
      step s = exec (.frmDec B) { s with inputs := rest } := fun e hdec hfrm =>
    (step_of_decode_raised hs hdec).trans (exec_frmDec_error hfrm { s with inputs := rest }).symm
  by_cases h6 : B.length < 6
  · exact of_raised _ (decodeFrame_short h6) (frameDecode_short _ h6)
  obtain ⟨b0, b1, b2, b3, b4, b5, body, rfl⟩ := header_of_length (Nat.le_of_not_lt h6)
  have hdec := decodeFrame_header b0 b1 b2 b3 b4 b5 body
  by_cases hsync : b0 = sync1 ∧ b1 = sync2
  · rw [if_neg (not_not.2 hsync)] at hdec
    obtain ⟨rfl, rfl⟩ := hsync
    by_cases hkind : b2 = tlmClass ∧ b3 = tlmId
    · rw [if_neg (not_not.2 hkind)] at hdec
      obtain ⟨rfl, rfl⟩ := hkind
      rw [stepRunsTheDecodedInstruction s _ rest _ hs hdec]
      have hframe : telemetryFrame (b4 ++ b5) body = sync1 :: sync2 :: tlmClass :: tlmId :: b4 :: b5 :: body := by
        rw [telemetryFrame, be_two_toNat, wordBytes_of_append]; rfl
      exact congrArg (fun F => exec (.frmDec F) { s with inputs := rest }) hframe
    · rw [if_pos hkind] at hdec
      exact of_raised _ hdec (frameDecode_unregistered _ _ _ ((configHw_lookup b2 b3).trans (if_neg hkind)))
  · rw [if_pos hsync] at hdec
    exact of_raised _ hdec (frameDecode_bad_sync _ _ _ _ _ hsync)

end Sys2Proof

namespace Sys2Proof.Machine

/-! ### Inputs (70_reset_and_hazards.md R130, R131, R139) -/

/-- Settles O2 (R130, R131): a reset writes every field but the inputs behind it. -/
theorem resetInputRestoresResetState : Obligations.ResetInputRestoresResetState := by
  intro s rest hs
  rw [step, fetch_reset hs]
  rfl

/-- Settles O3 (R139): with no input a step only waits. -/
theorem idleBlockKeepsItsState : Obligations.IdleBlockKeepsItsState := by
  intro s hs
  rw [step, fetch_nothing hs]
  rfl

/-- A request with a code that stands in no row of the table. -/
theorem decodeRequest_reservedOp {op : BitVec 4} (h : Op.ofCode op = none) (operand : Bytes) :
    decodeRequest (op.setWidth 8 :: operand) = .error (.reservedOp op) := by
  have hlt : ¬ 16 ≤ (op.setWidth 8).toNat := by
    have := op.isLt
    simp only [BitVec.toNat_setWidth]
    omega
  have hcode : (op.setWidth 8).setWidth 4 = op := by simp
  rw [decodeRequest, if_neg hlt, hcode]
  simp only [h]

/-- Settles O5 (R52): the five codes stand in no row of the table. -/
theorem reservedOpCodesAreRefused : Obligations.ReservedOpCodesAreRefused := by
  intro s op operand rest hs hop
  have hnone : Op.ofCode op = none := by obtain rfl | rfl | rfl | rfl | rfl := hop <;> rfl
  have hdec : decode (.request (op.setWidth 8 :: operand)) = .error (.reservedOp op) :=
    decodeRequest_reservedOp hnone operand
  rw [step, fetch_present hs]
  simp only [hdec]
  rfl

/-- Settles O9: the decoder evaluated on the twelve written-out words. -/
theorem opCodesSelectTheirOperations : Obligations.OpCodesSelectTheirOperations := by
  unfold Obligations.OpCodesSelectTheirOperations
  decide

/-! ### An instruction as an operation on the block (10_state.md R10) -/

/-- The state after one operation at the port. -/
def afterOp (s : State) (i : Instr) : State := deliver s (operate i s.toBlock)

@[simp] theorem afterOp_toBlock (s : State) (i : Instr) : (afterOp s i).toBlock = (operate i s.toBlock).block := rfl

/-- `exec` has a next state for every instruction: the operation's answer delivered at the port. -/
theorem exec_eq_next (i : Instr) (s : State) : exec i s = .next (afterOp s i) := by cases i <;> rfl

/-- The only next state an instruction has. -/
theorem eq_afterOp_of_exec {i : Instr} {s t : State} (h : exec i s = .next t) : t = afterOp s i := by
  cases (exec_eq_next i s).symm.trans h; rfl

/-- Settles O55 (R10): delivering an answer writes the block and the completion. -/
theorem execIsTheOperationOnTheBlock : Obligations.ExecIsTheOperationOnTheBlock := exec_eq_next

/-- Settles O49 (R141): every instruction has an answer, and its completion is delivered. -/
theorem everyOperationCompletes : Obligations.EveryOperationCompletes := fun i s =>
  ⟨afterOp s i, (operate i s.toBlock).completion, exec_eq_next i s, rfl, rfl⟩

/-! ### What an operation may write and read (10_state.md R11, R13, R14) -/

/-- Only `CRC.INIT` and `CRC.BYTE` write `CRCR`. -/
theorem operate_crcr {i : Instr} (h : i.writesCrcr = false) (b : Block) : (operate i b).block.crcr = b.crcr := by
  cases i with
  | crcInit | crcByte => cases h
  | pldEnc | pldDec | frmWrap | frmEnc | frmDec | telemetry => exact congrArg Block.crcr (finish_block b _ _)
  | crcRead | crcBlk | asmFeed | asmClr => rfl

/-- Only `ASM.FEED` and `ASM.CLR` write `abuf`. -/
theorem operate_abuf {i : Instr} (h : i.writesAbuf = false) (b : Block) : (operate i b).block.abuf = b.abuf := by
  cases i with
  | asmFeed | asmClr => cases h
  | pldEnc | pldDec | frmWrap | frmEnc | frmDec | telemetry => exact congrArg Block.abuf (finish_block b _ _)
  | crcInit | crcByte | crcRead | crcBlk => rfl

/-- Settles O52 (R13, R14): the block is written as `operate` writes it. -/
theorem onlyTheNamedOperationsWriteState : Obligations.OnlyTheNamedOperationsWriteState := by
  intro i s t h
  obtain rfl := eq_afterOp_of_exec h
  exact ⟨fun hw => operate_crcr hw s.toBlock, fun hw => operate_abuf hw s.toBlock, rfl⟩

/-- An operation other than `CRC.READ` and `ASM.FEED` completes the same on every block. -/
theorem operate_completion_of_readsNoState {i : Instr} (h : i.readsNoState = true) (b b' : Block) :
    (operate i b).completion = (operate i b').completion := by
  cases i with
  | crcRead | asmFeed => cases h
  | pldEnc | pldDec | frmWrap | frmEnc | frmDec | telemetry => exact finish_completion b _ _ b'
  | crcInit | crcByte | crcBlk | asmClr => rfl

/-- An operation leaves `abuf` as a function of its operand and of `abuf`. -/
theorem operate_abuf_congr (i : Instr) {b b' : Block} (h : b.abuf = b'.abuf) :
    (operate i b).block.abuf = (operate i b').block.abuf := by
  by_cases hw : i.writesAbuf = false
  · rw [operate_abuf hw, operate_abuf hw, h]
  · cases i with
    | asmFeed D => exact congrArg (fun A => (asmFeed Config.hw A D).2) h
    | asmClr => rfl
    | _ => exact absurd rfl hw

/-- An operation leaves `CRCR` as a function of its operand and of `CRCR`. -/
theorem operate_crcr_congr (i : Instr) {b b' : Block} (h : b.crcr = b'.crcr) :
    (operate i b).block.crcr = (operate i b').block.crcr := by
  by_cases hw : i.writesCrcr = false
  · rw [operate_crcr hw, operate_crcr hw, h]
  · cases i with
    | crcByte x => exact congrArg (fun c => crcStep hwCrc c x) h
    | crcInit => rfl
    | _ => exact absurd rfl hw

/-- The completion of an operation other than `CRC.READ` depends on `abuf` alone. -/
theorem operate_completion_of_abuf_eq {i : Instr} (hi : i ≠ .crcRead) {b b' : Block} (h : b.abuf = b'.abuf) :
    (operate i b).completion = (operate i b').completion := by
  by_cases hr : i.readsNoState = true
  · exact operate_completion_of_readsNoState hr b b'
  · cases i with
    | asmFeed D => exact congrArg (fun A => (⟨.ok, 0#16, .events (asmFeed Config.hw A D).1⟩ : Completion)) h
    | crcRead => exact absurd rfl hi
    | _ => exact absurd rfl hr

/-- The completion of an operation other than `ASM.FEED` depends on `CRCR` alone. -/
theorem operate_completion_of_crcr_eq {i : Instr} (hi : ∀ D, i ≠ .asmFeed D) {b b' : Block} (h : b.crcr = b'.crcr) :
    (operate i b).completion = (operate i b').completion := by
  by_cases hr : i.readsNoState = true
  · exact operate_completion_of_readsNoState hr b b'
  · cases i with
    | asmFeed D => exact absurd rfl (hi D)
    | crcRead => exact congrArg (fun c => (⟨.ok, 0#16, .word (crcFinal hwCrc c)⟩ : Completion)) h
    | _ => exact absurd rfl hr

/-- Settles O53 (R14, R30): what each operation reads of the block. -/
theorem completionsDependOnWhatIsRead : Obligations.CompletionsDependOnWhatIsRead := by
  intro i s s' t t' h h'
  obtain rfl := eq_afterOp_of_exec h
  obtain rfl := eq_afterOp_of_exec h'
  exact ⟨fun hr => congrArg some (operate_completion_of_readsNoState hr _ _),
    fun ha hi => ⟨congrArg some (operate_completion_of_abuf_eq hi ha), operate_abuf_congr i ha⟩,
    fun hc hi => ⟨congrArg some (operate_completion_of_crcr_eq hi hc), operate_crcr_congr i hc⟩⟩

/-! ### Errors (60_exceptions.md R118, R127) -/

/-- An operation that ends with an error has raised it: the block is as it was and there is no result. -/
theorem finish_of_status_ne_ok {α : Type} {b : Block} {asResult : α → Result} {x : Except Raised α}
    (h : (finish b asResult x).completion.status ≠ .ok) :
    (finish b asResult x).completion.result = .none ∧ (finish b asResult x).block = b := by
  obtain ⟨v, -, hv⟩ | ⟨e, -, he⟩ := finish_cases b asResult x
  · rw [hv] at h
    exact absurd rfl h
  · rw [he]
    exact ⟨rfl, rfl⟩

/-- An operation whose completion is an error returns no result and leaves the block as it was. -/
theorem operate_of_status_ne_ok {i : Instr} {b : Block} (h : (operate i b).completion.status ≠ .ok) :
    (operate i b).completion.result = .none ∧ (operate i b).block = b := by
  cases i with
  | pldEnc | pldDec | frmWrap | frmEnc | frmDec | telemetry => exact finish_of_status_ne_ok h
  | crcInit | crcByte | crcRead | crcBlk | asmFeed | asmClr => exact absurd rfl h

/-- Settles O51 (R118): an error is raised on the block as it was. -/
theorem errorsLeaveTheStateAsItWas : Obligations.ErrorsLeaveTheStateAsItWas := by
  intro i s t c h hc hstatus
  obtain rfl := eq_afterOp_of_exec h
  cases hc
  obtain ⟨hresult, hblock⟩ := operate_of_status_ne_ok hstatus
  refine ⟨hresult, ?_⟩
  rw [afterOp, deliver, hblock]

/-- The status of an operation that ends in one of the two ways is `OK` or that of the error raised. -/
theorem finish_status {α : Type} (b : Block) (asResult : α → Result) (x : Except Raised α) :
    (finish b asResult x).completion.status = .ok ∨
      ∃ e, x = .error e ∧ (finish b asResult x).completion.status = errorStatus e.name := by
  obtain ⟨v, -, hv⟩ | ⟨e, hx, he⟩ := finish_cases b asResult x
  · exact .inl (by rw [hv]; rfl)
  · exact .inr ⟨e, hx, by rw [he]; rfl⟩

end Sys2Proof.Machine

namespace Sys2Proof.Machine

/-! ### Programs (30_encoding.md R54, 20_memory.md R34) -/

/-- The state after the operations of a program, one after the other. -/
def afterOps (s : State) (prog : List Instr) : State := prog.foldl afterOp s

/-- The completions that the operations of a program return, in order. -/
def completionsOf : State → List Instr → List Completion
  | _, [] => []
  | s, i :: prog => (operate i s.toBlock).completion :: completionsOf (afterOp s i) prog

@[simp] theorem afterOps_cons (s : State) (i : Instr) (prog : List Instr) :
    afterOps s (i :: prog) = afterOps (afterOp s i) prog := rfl
theorem afterOps_append (s : State) (p q : List Instr) : afterOps s (p ++ q) = afterOps (afterOps s p) q :=
  List.foldl_append
@[simp] theorem completionsOf_cons (s : State) (i : Instr) (prog : List Instr) :
    completionsOf s (i :: prog) = (operate i s.toBlock).completion :: completionsOf (afterOp s i) prog := rfl

/-- Every program runs: no operation stops it. -/
theorem runOps_eq : ∀ (prog : List Instr) (s : State), runOps prog s = .next (afterOps s prog, completionsOf s prog)
  | [], _ => rfl
  | i :: prog, s => by
    simp only [runOps, exec_eq_next, runOps_eq prog]
    rfl

/-- The only outcome a program has. -/
theorem eq_of_runOps {prog : List Instr} {s t : State} {cs : List Completion} (h : runOps prog s = .next (t, cs)) :
    t = afterOps s prog ∧ cs = completionsOf s prog := by
  cases (runOps_eq prog s).symm.trans h
  exact ⟨rfl, rfl⟩

/-- The completions of two programs, one behind the other. -/
theorem completionsOf_append : ∀ (p q : List Instr) (s : State),
    completionsOf s (p ++ q) = completionsOf s p ++ completionsOf (afterOps s p) q
  | [], _, _ => rfl
  | i :: p, q, s => congrArg _ (completionsOf_append p q (afterOp s i))

/-- The machine goes on from the next state of a step. -/
theorem run_succ_of_step {s s' : State} (k : Nat) (h : step s = .next s') :
    Host.Core.run Sys2Proof.core (k + 1) s = Host.Core.run Sys2Proof.core k s' := by
  have h' : Sys2Proof.core.step s = .next s' := h
  simp only [Host.Core.run, h']

/-- A program presented with further inputs behind it runs in as many steps as it has operations, and leaves these inputs. -/
theorem run_presentAll (rest : List Input) : ∀ (prog : List Instr) (s : State),
    Host.Core.run Sys2Proof.core prog.length { s with inputs := presentAll prog ++ rest } =
      .next { afterOps s prog with inputs := rest }
  | [], _ => rfl
  | i :: prog, s => by
    have hstep : step { s with inputs := presentAll (i :: prog) ++ rest } =
        .next { afterOp s i with inputs := presentAll prog ++ rest } := by
      rw [stepRunsTheDecodedInstruction _ _ _ i rfl (decodeUndoesEncode i), exec_eq_next]
      rfl
    exact (run_succ_of_step prog.length hstep).trans (run_presentAll rest prog (afterOp s i))

/-- Settles O6, by induction on the program: each step decodes the next encoded operation and executes it. -/
theorem presentedProgramRunsInOrder : Obligations.PresentedProgramRunsInOrder := by
  intro prog s t cs rest h
  obtain ⟨rfl, -⟩ := eq_of_runOps h
  exact run_presentAll rest prog s

/-- `CRCR` after a program is what its `CRC.INIT` and `CRC.BYTE` operations make of any state with the same `CRCR`. -/
theorem afterOps_filter_crcr : ∀ (prog : List Instr) {s s' : State}, s'.crcr = s.crcr →
    (afterOps s' (prog.filter Instr.writesCrcr)).crcr = (afterOps s prog).crcr
  | [], _, _, h => h
  | i :: prog, s, s', h => by
    cases hw : i.writesCrcr
    · rw [List.filter_cons_of_neg (by simp [hw]), afterOps_cons]
      exact afterOps_filter_crcr prog (h.trans (operate_crcr hw s.toBlock).symm)
    · rw [List.filter_cons_of_pos hw, afterOps_cons, afterOps_cons]
      exact afterOps_filter_crcr prog (operate_crcr_congr i h)

/-- Settles O22, by induction on the program: an operation that is left out leaves `CRCR` as it is. -/
theorem crcrFollowsInitAndByteOnly : Obligations.CrcrFollowsInitAndByteOnly := by
  intro prog s t cs h
  obtain ⟨rfl, -⟩ := eq_of_runOps h
  exact ⟨_, _, runOps_eq _ s, afterOps_filter_crcr prog rfl⟩

/-- Programs on equal blocks leave equal blocks and return the same completions. -/
theorem afterOps_completionsOf_congr : ∀ (prog : List Instr) {s s' : State}, s.toBlock = s'.toBlock →
    (afterOps s' prog).toBlock = (afterOps s prog).toBlock ∧ completionsOf s' prog = completionsOf s prog
  | [], _, _, h => ⟨h.symm, rfl⟩
  | i :: prog, s, s', h => by
    have hnext : (afterOp s i).toBlock = (afterOp s' i).toBlock := by rw [afterOp_toBlock, afterOp_toBlock, h]
    obtain ⟨hblock, hcs⟩ := afterOps_completionsOf_congr prog hnext
    exact ⟨hblock, by rw [completionsOf_cons, completionsOf_cons, h, hcs]⟩

/-- Settles O56, by induction on the program: an operation sees of a state its block alone. -/
theorem nothingButTheBlockSurvives : Obligations.NothingButTheBlockSurvives := by
  intro prog s s' t cs hblock h
  obtain ⟨rfl, rfl⟩ := eq_of_runOps h
  obtain ⟨hsame, hcs⟩ := afterOps_completionsOf_congr prog hblock
  exact ⟨_, hcs ▸ runOps_eq prog s', hsame⟩

/-! ### Several instances (10_state.md R21) -/

/-- A step taken at `k` sets the state at `k` and no other. -/
theorem stepAt_eq_next_iff {n : Nat} {k : Fin n} {sys u : System n} :
    stepAt k sys = .next u ↔ ∃ s, step sys[k] = .next s ∧ u = sys.set k s := by
  rw [stepAt]
  cases step sys[k] <;> simp [eq_comm]

/-- Settles O54: the two steps set different entries of the vector of states. -/
theorem stepsOfDifferentInstancesCommute : Obligations.StepsOfDifferentInstancesCommute := by
  intro n k l sys u v hkl hk hl
  have hne : (k : Nat) ≠ l := fun h => hkl (Fin.ext h)
  obtain ⟨a, ha, rfl⟩ := stepAt_eq_next_iff.1 hk
  have hl' : (sys.set k a)[l] = sys[l] := Vector.getElem_set_ne _ _ hne
  obtain ⟨b, hb, rfl⟩ := stepAt_eq_next_iff.1 hl
  have hk' : (sys.set l b)[k] = sys[k] := Vector.getElem_set_ne _ _ hne.symm
  refine ⟨hl', sys.set l b, stepAt_eq_next_iff.2 ⟨b, hl' ▸ hb, rfl⟩, stepAt_eq_next_iff.2 ⟨a, hk'.symm ▸ ha, ?_⟩⟩
  exact Vector.set_comm _ _ hne

end Sys2Proof.Machine

namespace Sys2Proof.Machine

/-! ### Writing and reading a field (00_scope.md section 5.2, 20_memory.md R26) -/

/-- Byte `k` of `be_n(v)`, the most significant byte first. -/
theorem be_getElem? : ∀ {n k : Nat} (v : Nat), k < n → (be n v)[k]? = some (BitVec.ofNat 8 (v / 256 ^ (n - 1 - k)))
  | n + 1, 0, v, _ => by simp [be]
  | n + 1, k + 1, v, h => by
    have hexp : n + 1 - 1 - (k + 1) = n - 1 - k := by omega
    rw [be, List.getElem?_cons_succ, be_getElem? v (by omega), hexp]

/-- The field that was written is `be_n(v)`. -/
theorem memWrite_field {B : Bytes} {off n : Nat} (v : Nat) (h : off + n ≤ B.length) :
    ((memWrite B off n v).drop off).take n = be n v := by
  have hoff : (B.take off).length = off := List.length_take_of_le (by omega)
  rw [memWrite, List.append_assoc, List.drop_left' hoff, List.take_left' (be_length n v)]

/-- Before the field a write changes nothing. -/
theorem memWrite_getElem?_before {B : Bytes} {off n k : Nat} (v : Nat) (h : off + n ≤ B.length) (hk : k < off) :
    (memWrite B off n v)[k]? = B[k]? := by
  have hoff : (B.take off).length = off := List.length_take_of_le (by omega)
  rw [memWrite, List.append_assoc, List.getElem?_append_left (by omega), List.getElem?_take_of_lt hk]

/-- Behind the field a write changes nothing. -/
theorem memWrite_getElem?_behind {B : Bytes} {off n k : Nat} (v : Nat) (h : off + n ≤ B.length) (hk : off + n ≤ k) :
    (memWrite B off n v)[k]? = B[k]? := by
  have hlen : (B.take off ++ be n v).length = off + n := by simp; omega
  rw [memWrite, List.getElem?_append_right (by omega), hlen, List.getElem?_drop, Nat.add_sub_cancel' hk]

/-- Settles O12 (R26): the bytes of `be_n`, and a write cut into what stands before, in and behind the field. -/
theorem memWriteIsReadBackAndChangesNothingElse : Obligations.MemWriteIsReadBackAndChangesNothingElse := by
  refine ⟨fun n v k hk => be_getElem? v hk, fun n v h hv => ?_, fun B off n v h hv => ⟨?_, fun h' => ?_, fun k hk => ?_⟩⟩
  · rw [memRead_eq, List.drop_zero, List.take_of_length_le (be_length n v).le, beNat_be, Nat.mod_eq_of_lt hv]
  · exact memWrite_length B off n v h
  · rw [memRead_eq, memWrite_field v h, beNat_be, Nat.mod_eq_of_lt hv]
  · exact hk.elim (memWrite_getElem?_before v h) (memWrite_getElem?_behind v h)

/-! ### The payload codec as a bijection (40_payload_codec.md R66) -/

/-- The value read from `n` bytes is in the field's range. -/
theorem fieldInRange_fieldOfNat {signed : Bool} {n u : Nat} (hn : 0 < n) (hu : u < 256 ^ n) :
    fieldInRange signed n (fieldOfNat signed n u) = true := by
  have hu' : u < 2 ^ (8 * n) := by rwa [pow_mul]
  cases signed with
  | false =>
    have hcast : ((2 ^ (8 * n) : Nat) : Int) = 2 ^ (8 * n) := by push_cast; rfl
    simp only [fieldInRange, fieldOfNat, Bool.false_eq_true, if_false, decide_eq_true_eq]
    omega
  | true => exact decide_eq_true (toSigned_range (by omega) hu')

/-- The unsigned number that was read is stored again. -/
theorem fieldToNat_fieldOfNat {signed : Bool} {n u : Nat} (hn : 0 < n) (hu : u < 256 ^ n) :
    fieldToNat signed n (fieldOfNat signed n u) = u := by
  cases signed with
  | false => rfl
  | true => exact toUnsigned_toSigned (by omega) (by rwa [pow_mul])

/-- The decoder sets the field of each row to what the row reads. -/
theorem decodeRows_get (P : Bytes) (h : tlmLen ≤ P.length) (acc : Record) :
    ∀ row ∈ tlmLayout, row.field.get (decodeRows P h tlmLayout acc) =
      fieldOfNat row.signed row.size (memRead P row.offset row.size (Nat.le_trans row.fits h)) := by
  simp only [tlmLayout, List.forall_mem_cons, List.not_mem_nil, false_imp_iff, implies_true, and_true]
  exact ⟨rfl, rfl, rfl, rfl, rfl, rfl, rfl, rfl⟩

/-- No row of the layout is empty. -/
theorem tlmLayout_size_pos : ∀ row ∈ tlmLayout, 0 < row.size := by simp [tlmLayout]

/-- `be_n` undoes the big-endian value of `n` bytes. -/
theorem be_beNat_of_length {B : Bytes} {n : Nat} (h : B.length = n) : be n (beNat B) = B := h ▸ be_beNat B

/-- A row stores again the bytes that it was decoded from. -/
theorem LayoutRow.bytes_of_get {r : Record} {row : LayoutRow} {P : Bytes} (h : row.offset + row.size ≤ P.length)
    (hpos : 0 < row.size)
    (hget : row.field.get r = fieldOfNat row.signed row.size (memRead P row.offset row.size h)) :
    row.inRange r = true ∧ row.bytes r = (P.drop row.offset).take row.size := by
  have hlt := memRead_lt P row.offset row.size h
  have hlen : ((P.drop row.offset).take row.size).length = row.size := by simp; omega
  refine ⟨?_, ?_⟩
  · rw [LayoutRow.inRange, hget]
    exact fieldInRange_fieldOfNat hpos hlt
  · rw [LayoutRow.bytes, hget, fieldToNat_fieldOfNat hpos hlt, memRead_eq]
    exact be_beNat_of_length hlen

/-- Rows that tile a byte sequence cut it into pieces that make it up again. -/
theorem flatMap_of_tiles {P : Bytes} : ∀ {rows : List LayoutRow} {a : Nat}, Tiles a P.length rows →
    rows.flatMap (fun row => (P.drop row.offset).take row.size) = P.drop a
  | [], a, h => by
    have ha : a = P.length := h
    simp [ha]
  | row :: rows, a, ⟨hoff, _, h⟩ => by
    rw [List.flatMap_cons, flatMap_of_tiles h, hoff, ← List.drop_drop, List.take_append_drop]

/-- The record that 24 bytes decode to is in range and encodes to these bytes. -/
theorem tlmEncode_of_tlmDecode {P : Bytes} {r : Record} (hP : P.length = tlmLen) (h : tlmDecode P = .ok r) :
    r.inRange = true ∧ tlmEncode r = .ok P := by
  cases (tlmDecode_ok hP.ge).symm.trans h
  have hrows := fun row hrow =>
    LayoutRow.bytes_of_get _ (tlmLayout_size_pos row hrow) (decodeRows_get P hP.ge ⟨0, 0, 0, 0, 0, 0, 0, 0⟩ row hrow)
  have hin := (record_inRange_iff_rows _).2 fun row hrow => (hrows row hrow).1
  refine ⟨hin, ?_⟩
  rw [tlmEncode_eq_flatMap hin, List.flatMap_congr fun row hrow => (hrows row hrow).2,
    flatMap_of_tiles (hP ▸ tlmLayout_tiles), List.drop_zero]

/-- Settles O16 (R66): the rows tile the 24 bytes, so they store again what they read; and two in-range records with the same
encoding are what it decodes to. -/
theorem payloadCodecIsABijection : Obligations.PayloadCodecIsABijection := by
  refine ⟨fun P hP => ?_, fun r r' hr hr' h => ?_⟩
  · have hdec := tlmDecode_ok (P := P) hP.ge
    exact ⟨_, hdec, tlmEncode_of_tlmDecode hP hdec⟩
  · rw [tlmEncode_eq_flatMap hr, tlmEncode_eq_flatMap hr'] at h
    have hdec := tlmDecode_flatMap_bytes hr
    rw [Except.ok.inj h, tlmDecode_flatMap_bytes hr'] at hdec
    exact (Except.ok.inj hdec).symm

/-- Settles O17 (R7, D6): the unsigned 64-bit field is the widest, and an unbounded port carries every integer. -/
theorem portOf65BitsCarriesEveryInRangeRecord : Obligations.PortOf65BitsCarriesEveryInRangeRecord := by
  refine ⟨fun r h => ?_, fun i => ?_⟩
  · simp only [Record.inRange, Record.rangeChecks, List.all_cons, List.all_nil, Bool.and_eq_true, decide_eq_true_eq] at h
    simp only [Record.fitsPort, Sys2Proof.fitsPort, Bool.and_eq_true, decide_eq_true_eq]
    omega
  · cases i with
    | frmEnc p => cases p; rfl
    | _ => rfl

end Sys2Proof.Machine

namespace Sys2Proof.Machine

/-! ### `crc_step` as a table lookup (41_crc16.md R72) -/

/-- A register is its lower byte xor its upper byte moved up. -/
theorem word_eq_low_xor_high (c : Word) :
    c = (c.setWidth 8).setWidth 16 ^^^ ((c.extractLsb' 8 8).setWidth 16 <<< 8) := by
  ext i hi
  by_cases h8 : i < 8
  · simp [h8, hi, ← BitVec.getLsbD_eq_getElem]
  · have hi8 : i - 8 < 8 := by omega
    have hadd : 8 + (i - 8) = i := by omega
    have hi16 : i - 8 < 16 := by omega
    simp [h8, hi, hi8, hi16, hadd, ← BitVec.getLsbD_eq_getElem]

/-- Eight shifts of the lower byte alone only move it up. -/
theorem crcShifts_low_byte (p : CrcParams) (c : Word) : crcShifts p 8 ((c.setWidth 8).setWidth 16) = c <<< 8 := by
  have hlt : ((c.setWidth 8).setWidth 16).toNat * 2 ^ 8 < 65536 := by
    simp only [BitVec.toNat_setWidth]
    omega
  rw [crcShifts_low p 8 _ hlt]
  apply BitVec.eq_of_toNat_eq
  simp only [BitVec.toNat_shiftLeft, BitVec.toNat_setWidth, Nat.shiftLeft_eq]
  omega

/-- Settles O19 (R72), by linearity: the lower byte of the register only moves up, and the upper byte meets the byte taken. -/
theorem crcStepIsATableLookup : Obligations.CrcStepIsATableLookup := by
  intro p c b d
  have hsplit : c ^^^ (d.setWidth 16 <<< 8) =
      (c.setWidth 8).setWidth 16 ^^^ (((c.extractLsb' 8 8) ^^^ d).setWidth 16 <<< 8) := by
    conv_lhs => rw [word_eq_low_xor_high c]
    rw [BitVec.setWidth_xor, BitVec.shiftLeft_xor_distrib, BitVec.xor_assoc]
  calc crcStep p c b
    _ = crcShifts p 8 (c ^^^ (d.setWidth 16 <<< 8)) := rfl
    _ = crcShifts p 8 ((c.setWidth 8).setWidth 16) ^^^ crcShifts p 8 (((c.extractLsb' 8 8) ^^^ d).setWidth 16 <<< 8) := by
        rw [hsplit, crcShifts_xor]
    _ = (c <<< 8) ^^^ crcShifts p 8 (((c.extractLsb' 8 8) ^^^ d).setWidth 16 <<< 8) := by rw [crcShifts_low_byte]

/-! ### The block form and the streaming port (41_crc16.md R78) -/

/-- `CRC.BLK B` (R78). -/
theorem exec_crcBlk (B : Bytes) (s : State) :
    exec (.crcBlk B) s = .next { s with completion := completed (.word (crc16 hwCrc B)) } :=
  congrArg Host.Outcome.next (deliver_completeOk s (.word (crc16 hwCrc B)))

/-- `CRC.BYTE` for each byte runs the register over the bytes and keeps `abuf`. -/
theorem afterOps_map_crcByte : ∀ (B : Bytes) (s : State),
    (afterOps s (B.map .crcByte)).crcr = crcRun hwCrc s.crcr B ∧ (afterOps s (B.map .crcByte)).abuf = s.abuf
  | [], _ => ⟨rfl, rfl⟩
  | b :: B, s => afterOps_map_crcByte B (afterOp s (.crcByte b))

/-- Settles O20 (R78), by induction on the bytes: the streaming port holds `crc16` before `crc_final`. -/
theorem crcBlkEqualsTheStreamingPort : Obligations.CrcBlkEqualsTheStreamingPort := by
  intro B s
  rw [configHw_crc]
  refine ⟨exec_crcBlk B s, _, _, runOps_eq _ s, ?_⟩
  obtain ⟨hcrcr, habuf⟩ := afterOps_map_crcByte B (afterOp s .crcInit)
  have hend : afterOps s (Pseudo.crcOf B) = afterOp (afterOps (afterOp s .crcInit) (B.map .crcByte)) .crcRead := by
    rw [Pseudo.crcOf, afterOps_cons, afterOps_append]
    rfl
  rw [hend]
  exact ⟨congrArg (fun c => completed (.word (crcFinal hwCrc c))) hcrcr, habuf⟩

/-! ### The XMODEM parameters (41_crc16.md R79) -/

/-- Running the register over two sequences of equal length is linear over xor, for every parameter set. -/
theorem crcRun_xorBytes (p : CrcParams) : ∀ {A B : Bytes} (c c' : Word), A.length = B.length →
    crcRun p (c ^^^ c') (xorBytes A B) = crcRun p c A ^^^ crcRun p c' B
  | [], [], _, _, _ => rfl
  | a :: A, b :: B, c, c', h => by
    have ih := crcRun_xorBytes p (A := A) (B := B) (crcStep p c a) (crcStep p c' b) (Nat.succ.inj h)
    rwa [← crcStep_xor_xor] at ih

/-- Where bytes are not reversed, a byte equal to the upper byte of the register moves the register up by eight bits. -/
theorem crcStep_upper_byte {p : CrcParams} (hp : p.refin = false) (c : Word) : crcStep p c (c.extractLsb' 8 8) = c <<< 8 := by
  have htable := crcStepIsATableLookup p c (c.extractLsb' 8 8)
  rw [htable, hp, if_neg (by decide), BitVec.xor_self]
  simp [crcShifts_zero]

/-- Where bytes are not reversed, the register's own two bytes empty it. -/
theorem crcRun_wordBytes {p : CrcParams} (hp : p.refin = false) (c : Word) : crcRun p c (wordBytes c) = 0#16 := by
  have hlow : c.extractLsb' 0 8 = (c <<< 8).extractLsb' 8 8 := by
    apply BitVec.eq_of_toNat_eq
    simp only [BitVec.extractLsb'_toNat, BitVec.toNat_shiftLeft, Nat.shiftRight_eq_div_pow, Nat.shiftLeft_eq]
    omega
  rw [wordBytes, crcRun_cons, crcRun_cons, crcRun_nil, crcStep_upper_byte hp, hlow, crcStep_upper_byte hp,
    ← BitVec.shiftLeft_add]
  exact BitVec.shiftLeft_eq_zero (by decide)

/-- The checksum under the XMODEM parameters is the register as it stands. -/
theorem crc16_xmodem (B : Bytes) : crc16 .xmodem B = crcRun .xmodem 0#16 B := by
  rw [crc16, crcFinal, CrcParams.xmodem]
  exact BitVec.xor_zero

/-- The checksum is a one-to-one function of the register. -/
theorem crcFinal_injective (p : CrcParams) {c c' : Word} (h : crcFinal p c = crcFinal p c') : c = c' := by
  have h := (BitVec.xor_left_inj p.xorout).1 h
  split at h
  · rw [← BitVec.reverse_reverse_eq (x := c), h, BitVec.reverse_reverse_eq]
  · exact h

/-- A sequence with bit `j` of byte `k` inverted, its bytes before and after byte `k` written out. -/
theorem flipBit_eq {B : Bytes} {k : Nat} (j : Nat) (h : k < B.length) :
    flipBit B k j = B.take k ++ (B[k] ^^^ BitVec.twoPow 8 j) :: B.drop (k + 1) := List.modify_eq_take_cons_drop h

/-- An inverted bit changes the byte. -/
theorem xor_twoPow_ne {n : Nat} (b : BitVec n) {j : Nat} (hj : j < n) : b ^^^ BitVec.twoPow n j ≠ b := by
  intro h
  have hbit := congrArg (fun x => x.getLsbD j) h
  simp [hj] at hbit

/-- One inverted bit changes the checksum, where the polynomial has its lowest bit set. -/
theorem crc16_flipBit_ne {p : CrcParams} (hp : p.poly.getLsbD 0 = true) {B : Bytes} {k j : Nat} (hk : k < B.length)
    (hj : j < 8) : crc16 p (flipBit B k j) ≠ crc16 p B := by
  intro h
  have hrun := crcFinal_injective p h
  have hB : B = B.take k ++ B[k] :: B.drop (k + 1) := by simp
  rw [flipBit_eq j hk] at hrun
  conv_rhs at hrun => rw [hB]
  rw [crcRun_append, crcRun_append, crcRun_cons, crcRun_cons] at hrun
  exact xor_twoPow_ne B[k] hj (crcStep_byte_injective p hp (crcRun_register_injective p hp _ hrun))

/-- Settles O21 (R79): linearity over xor; the checksum's bytes empty the register; a zero byte leaves a register of zeros; a
byte and a register that differ stay different. -/
theorem xmodemProperties : Obligations.XmodemProperties := by
  refine ⟨fun A B h => ?_, fun B => ?_, fun B => ?_, fun B k j hk hj => crc16_flipBit_ne (by decide) hk hj⟩
  · rw [crc16_xmodem, crc16_xmodem, crc16_xmodem, ← crcRun_xorBytes _ _ _ h, BitVec.xor_self]
  · rw [crc16_xmodem, crc16_xmodem, crcRun_append, be_two_toNat]
    exact crcRun_wordBytes rfl _
  · have hzero : crcStep .xmodem 0#16 0#8 = 0#16 := by decide
    rw [crc16_xmodem, crc16_xmodem, crcRun_cons, hzero]

end Sys2Proof.Machine

namespace Sys2Proof.Machine

/-! ### The two-byte fields of a frame (30_encoding.md R46, 20_memory.md R26) -/

@[simp] theorem wordBytes_length (w : Word) : (wordBytes w).length = 2 := rfl

/-- The value of the two bytes of a word. -/
theorem beNat_wordBytes (w : Word) : beNat (wordBytes w) = w.toNat := by
  rw [← be_two_toNat, beNat_be]
  exact Nat.mod_eq_of_lt w.isLt

/-- Two bytes are those of a word when they have its value. -/
theorem eq_wordBytes_iff {X : Bytes} (hX : X.length = 2) (w : Word) : X = wordBytes w ↔ beNat X = w.toNat := by
  refine ⟨fun h => by rw [h, beNat_wordBytes], fun h => ?_⟩
  rw [← be_two_toNat, ← h, be_beNat_of_length hX]

/-- The bytes of the value of two bytes are these two bytes. -/
theorem wordBytes_ofNat_pair (b b' : Byte) : wordBytes (BitVec.ofNat 16 (b.toNat * 256 + b'.toNat)) = [b, b'] := by
  rw [← be_two, ← beNat_pair]
  exact be_beNat [b, b']

/-- The length field counts every payload of at most `MAX_PAYLOAD` bytes. -/
theorem beNat_wordBytes_ofNat {n : Nat} (h : n ≤ maxPayload) : beNat (wordBytes (BitVec.ofNat 16 n)) = n := by
  rw [beNat_wordBytes, BitVec.toNat_ofNat]
  exact Nat.mod_eq_of_lt (Nat.lt_succ_of_le h)

/-- The length field of a header written out byte by byte. -/
theorem lengthField_header (b0 b1 b2 b3 b4 b5 : Byte) (body : Bytes) :
    lengthField (b0 :: b1 :: b2 :: b3 :: b4 :: b5 :: body) = b4.toNat * 256 + b5.toNat := beNat_pair b4 b5

/-- Two bytes count no more than `MAX_PAYLOAD`. -/
theorem beNat_pair_le_maxPayload (b b' : Byte) : b.toNat * 256 + b'.toNat ≤ maxPayload := by
  simp only [maxPayload]
  omega

/-! ### A frame as header, payload and checksum (30_encoding.md R40) -/

/-- The bytes of a frame that its checksum covers: the header and the payload (R71). -/
def frameHead (cls id : Byte) (P : Bytes) : Bytes :=
  sync1 :: sync2 :: cls :: id :: (wordBytes (BitVec.ofNat 16 P.length) ++ P)

@[simp] theorem frameHead_length (cls id : Byte) (P : Bytes) : (frameHead cls id P).length = 6 + P.length := by
  simp [frameHead]
  omega

/-- What `frame_wrap` builds: those bytes and their checksum. -/
theorem frameWrap_eq_frameHead (p : CrcParams) (cls id : Byte) {P : Bytes} (h : P.length ≤ maxPayload) :
    frameWrap p cls id P = .ok (frameHead cls id P ++ wordBytes (crc16 p (frameHead cls id P))) :=
  frameWrap_of_le p cls id h

/-- A buffer with a header and all the bytes that its length field announces, cut into the bytes under the checksum, the
checksum, and what follows the frame. -/
theorem header_eq_frameHead (cls id : Byte) {b4 b5 : Byte} {N : Nat} {body : Bytes} (hN : b4.toNat * 256 + b5.toNat = N)
    (h : N + 2 ≤ body.length) :
    sync1 :: sync2 :: cls :: id :: b4 :: b5 :: body =
      frameHead cls id (body.take N) ++ ((body.drop N).take 2 ++ body.drop (N + 2)) := by
  have hP : (body.take N).length = N := List.length_take_of_le (by omega)
  rw [frameHead, hP, ← hN, wordBytes_ofNat_pair, hN, ← List.drop_drop, List.take_append_drop]
  simp only [List.cons_append, List.nil_append, List.take_append_drop]

section Frame
variable {π : Type} {c : Config π} {e : Entry π} {cls id : Byte} {P ck : Bytes}

/-- Checks (d) and (e) and the payload decoder on a whole frame, whatever follows it (42_framer.md R83). -/
theorem frameDecode_frameHead (he : c.lookup cls id = some e) (hP : P.length ≤ maxPayload)
    (hL : c.lenCheck = .strict → P.length = e.explen) (hck : ck.length = 2) (X : Bytes) :
    (ck ≠ wordBytes (crc16 c.crc (frameHead cls id P)) →
      frameDecode c (frameHead cls id P ++ (ck ++ X)) = .error ⟨.checksumMismatch, 0#16⟩) ∧
    (ck = wordBytes (crc16 c.crc (frameHead cls id P)) →
      frameDecode c (frameHead cls id P ++ (ck ++ X)) = (e.dec P).map fun p => (p, 8 + P.length)) := by
  have hN := beNat_wordBytes_ofNat hP
  rw [wordBytes, beNat_pair] at hN
  have hwhole := (frameDecode_after_length_check (P ++ (ck ++ X)) he hN hL).2
  have hB : sync1 :: sync2 :: cls :: id :: BitVec.extractLsb' 8 8 (BitVec.ofNat 16 P.length) ::
      BitVec.extractLsb' 0 8 (BitVec.ofNat 16 P.length) :: (P ++ (ck ++ X)) = frameHead cls id P ++ (ck ++ X) := by
    simp [frameHead, wordBytes]
  have hhead : (frameHead cls id P ++ (ck ++ X)).take (6 + P.length) = frameHead cls id P :=
    List.take_left' (frameHead_length cls id P)
  have htail : (frameHead cls id P ++ (ck ++ X)).drop (6 + P.length) = ck ++ X :=
    List.drop_left' (frameHead_length cls id P)
  have hpayload : (frameHead cls id P).drop 6 = P := rfl
  rw [hB, hhead, htail, List.take_left' hck, hpayload] at hwhole
  have hwhole := hwhole (by simp only [List.length_append, frameHead_length]; omega)
  exact ⟨fun h => hwhole.1 (mt (eq_wordBytes_iff hck _).2 h), fun h => hwhole.2 ((eq_wordBytes_iff hck _).1 h)⟩

/-- A frame that was built around a payload of a registered kind gives the payload decoder its payload, whatever follows
the frame. -/
theorem frameDecode_frameWrap {F : Bytes} (he : c.lookup cls id = some e) (hP : P.length = e.explen)
    (hF : frameWrap c.crc cls id P = .ok F) (X : Bytes) :
    frameDecode c (F ++ X) = (e.dec P).map fun p => (p, 8 + e.explen) := by
  have hmax := (frameWrap_ok hF).1
  cases (frameWrap_eq_frameHead c.crc cls id hmax).symm.trans hF
  rw [List.append_assoc, ← hP]
  exact (frameDecode_frameHead he hmax (fun _ => hP) (wordBytes_length _) X).2 rfl

/-- A header, the bytes it announces and their checksum are the frame that `frame_wrap` builds around the payload. -/
theorem frameWrap_of_checksum (p : CrcParams) (cls id : Byte) {b4 b5 : Byte} {N : Nat} {body : Bytes}
    (hN : b4.toNat * 256 + b5.toNat = N) (h : N + 2 ≤ body.length)
    (hck : (body.drop N).take 2 = wordBytes (crc16 p (frameHead cls id (body.take N)))) :
    frameWrap p cls id (body.take N) = .ok ((sync1 :: sync2 :: cls :: id :: b4 :: b5 :: body).take (8 + N)) := by
  have hP : (body.take N).length = N := List.length_take_of_le (by omega)
  have hmax : (body.take N).length ≤ maxPayload := by rw [hP, ← hN]; exact beNat_pair_le_maxPayload b4 b5
  have hframe : (frameHead cls id (body.take N) ++ (body.drop N).take 2).length = 8 + N := by
    simp
    omega
  rw [frameWrap_eq_frameHead p cls id hmax, header_eq_frameHead cls id hN h, ← hck, ← List.append_assoc,
    List.take_left' hframe]

/-- A well-formed frame is what `frame_wrap` builds around its payload (42_framer.md R87). -/
theorem frameWrap_of_wellFormedFrame {F : Bytes} (h : WellFormedFrame c F) :
    ∃ cls id e P, c.lookup cls id = some e ∧ P.length = e.explen ∧ frameWrap c.crc cls id P = .ok F := by
  obtain ⟨hmin, ⟨hsync1, hsync2⟩, e, ⟨cls, id, hcls, hid, he⟩, hN, hsize, hck⟩ := h
  obtain ⟨b0, b1, b2, b3, b4, b5, body, rfl⟩ := header_of_length (B := F) (by omega)
  cases hsync1; cases hsync2; cases hcls; cases hid
  rw [lengthField_header] at hN
  have hbody : body.length = e.explen + 2 := by simp only [List.length_cons] at hsize; omega
  have hP : (body.take e.explen).length = e.explen := List.length_take_of_le (by omega)
  have hhead : (frameHead cls id (body.take e.explen)).length = 6 + e.explen := by rw [frameHead_length, hP]
  have hlen2 : ((body.drop e.explen).take 2).length = 2 := by simp; omega
  rw [header_eq_frameHead cls id hN hbody.ge, List.take_left' hhead, List.drop_left' hhead, List.take_left' hlen2] at hck
  have hF := frameWrap_of_checksum c.crc cls id hN hbody.ge ((eq_wordBytes_iff hlen2 _).2 hck)
  rw [← hsize, List.take_length] at hF
  exact ⟨cls, id, e, body.take e.explen, he, hP, hF⟩

/-- What `frame_wrap` builds around a payload of the expected length, under the key of a registered kind, is well-formed. -/
theorem wellFormedFrame_of_frameWrap {F : Bytes} (he : c.lookup cls id = some e) (hP : P.length = e.explen)
    (hF : frameWrap c.crc cls id P = .ok F) : WellFormedFrame c F := by
  have hmax := (frameWrap_ok hF).1
  cases (frameWrap_eq_frameHead c.crc cls id hmax).symm.trans hF
  have hhead : (frameHead cls id P).length = 6 + e.explen := by rw [frameHead_length, hP]
  refine ⟨?_, ⟨rfl, rfl⟩, e, ⟨cls, id, rfl, rfl, he⟩, (beNat_wordBytes_ofNat hmax).trans hP, by simp; omega, ?_⟩
  · simp [minFrame, hdrLen, cksLen]
  · rw [List.take_left' hhead, List.drop_left' hhead, List.take_of_length_le (wordBytes_length _).le, beNat_wordBytes]

end Frame

end Sys2Proof.Machine

namespace Sys2Proof.Machine

/-! ### Lawful registries (42_framer.md R90) -/

/-- The payload encoder raises `EncodingRangeError` or nothing. -/
theorem tlmEncode_error_name {r : Record} {e : Raised} (h : tlmEncode r = .error e) : e.name = .encodingRange := by
  cases hr : r.firstOutOfRange with
  | none => cases (tlmEncode_eq_flatMap ((record_inRange_iff_firstOutOfRange r).2 hr)).symm.trans h
  | some i => cases (tlmEncode_error hr).symm.trans h; rfl

/-- What the payload encoder returns is 24 bytes. -/
theorem tlmEncode_length {r : Record} {P : Bytes} (h : tlmEncode r = .ok P) : P.length = tlmLen := by
  cases hr : r.firstOutOfRange with
  | none =>
    cases (tlmEncode_eq_flatMap ((record_inRange_iff_firstOutOfRange r).2 hr)).symm.trans h
    exact flatMap_bytes_length r
  | some i => cases (tlmEncode_error hr).symm.trans h

/-- The payload decoder raises `DecodingLengthError(0)` or nothing. -/
theorem tlmDecode_error {P : Bytes} {e : Raised} (h : tlmDecode P = .error e) : e = ⟨.decodingLength, 0#16⟩ := by
  by_cases hP : P.length < tlmLen
  · cases (tlmDecode_short hP).symm.trans h; rfl
  · cases (tlmDecode_ok (Nat.le_of_not_lt hP)).symm.trans h

/-- The decoder of the telemetry entry on a payload that `tlm_decode` accepts. -/
theorem tlmEntry_dec_ok {P : Bytes} {r : Record} (h : tlmDecode P = .ok r) : tlmEntry.dec P = .ok (.telemetry r) := by
  rw [tlmEntry_dec, h]; rfl

/-- The telemetry entry has what R90 asks. -/
theorem tlmEntry_lawful : tlmEntry.Lawful where
  explen_le := by decide
  enc_length := fun ⟨_⟩ _ h => tlmEncode_length h
  enc_error := fun ⟨_⟩ _ h => tlmEncode_error_name h
  dec_ok := fun _ h => ⟨_, tlmEntry_dec_ok (tlmDecode_ok h)⟩
  dec_error := fun P x h => by
    rw [tlmEntry_dec] at h
    cases hP : tlmDecode P with
    | ok r => rw [hP] at h; cases h
    | error e => rw [hP] at h; cases h; exact tlmDecode_error hP

/-- Settles O34 (R90): the one entry is lawful, and no bound of the configuration depends on the parameters. -/
theorem hardwareRegistryIsLawful : Obligations.HardwareRegistryIsLawful := by
  intro p l
  refine ⟨by cases l <;> rfl, fun e he => ?_⟩
  rw [List.mem_singleton.1 he]
  exact tlmEntry_lawful

/-- This hardware's configuration is lawful. -/
theorem configHw_lawful : Config.hw.Lawful := hardwareRegistryIsLawful hwCrc hwLenCheck

/-- Settles O57 (R7): each field of this hardware's configuration. -/
theorem parametersOfThisHardware : Obligations.ParametersOfThisHardware :=
  ⟨rfl, rfl, rfl, ⟨tlmEntry, rfl, rfl, rfl, rfl, fun _ => rfl, fun _ => rfl⟩, rfl, rfl, fun _ => rfl⟩

/-! ### Telemetry frames (42_framer.md R83, R85, R87, R88) -/

/-- A telemetry header announces 24 bytes only with the length field `00 18`. -/
theorem lengthBytes_eq_tlmLen_iff (b4 b5 : Byte) : b4.toNat * 256 + b5.toNat = tlmLen ↔ b4 = 0x00 ∧ b5 = 0x18 := by
  rw [← BitVec.toNat_inj, ← BitVec.toNat_inj, show tlmLen = 24 from rfl, show (0x00 : Byte).toNat = 0 from rfl,
    show (0x18 : Byte).toNat = 24 from rfl]
  omega

/-- The header of a telemetry frame, written out. -/
theorem frameHead_telemetry {P : Bytes} (h : P.length = tlmLen) :
    frameHead tlmClass tlmId P = 0xE4 :: 0xEB :: 0x05 :: 0x03 :: 0x00 :: 0x18 :: P := by
  have hfield : wordBytes (BitVec.ofNat 16 tlmLen) = [0x00, 0x18] := by decide
  rw [frameHead, h, hfield]
  rfl

section Telemetry
variable {p : CrcParams} {l : LenCheck} {P ck : Bytes}

/-- A telemetry frame whose checksum bytes are not the checksum (check (e) of R83). -/
theorem frameDecode_telemetry_mismatch (hP : P.length = tlmLen) (hck : ck.length = 2)
    (h : ck ≠ wordBytes (crc16 p (frameHead tlmClass tlmId P))) (X : Bytes) :
    frameDecode (Config.hwWith p l) (frameHead tlmClass tlmId P ++ (ck ++ X)) = .error ⟨.checksumMismatch, 0#16⟩ :=
  (frameDecode_frameHead (hwWith_lookup p l) (hP.trans_le (by decide)) (fun _ => hP) hck X).1 h

/-- A telemetry frame with its checksum gives the record in its payload. -/
theorem frameDecode_telemetry_ok (hP : P.length = tlmLen) (hck : ck.length = 2)
    (h : ck = wordBytes (crc16 p (frameHead tlmClass tlmId P))) (X : Bytes) {r : Record} (hr : tlmDecode P = .ok r) :
    frameDecode (Config.hwWith p l) (frameHead tlmClass tlmId P ++ (ck ++ X)) = .ok (.telemetry r, 32) := by
  rw [(frameDecode_frameHead (hwWith_lookup p l) (hP.trans_le (by decide)) (fun _ => hP) hck X).2 h, tlmEntry_dec_ok hr, hP]
  rfl

end Telemetry

/-- Settles O26 (R85): the laws of the single checks with the telemetry registry under `STRICT`; a whole frame is cut into
the bytes under the checksum, the checksum and what follows. -/
theorem frmDecReportsTheFirstFailingCheck : Obligations.FrmDecReportsTheFirstFailingCheck := by
  refine fun s => ⟨fun B h => exec_frmDec_error (frameDecode_short _ h) s, fun b0 b1 b2 b3 b4 b5 body =>
    ⟨fun h => exec_frmDec_error (frameDecode_bad_sync _ _ _ _ _ h) s, ?_⟩⟩
  rintro rfl rfl
  refine ⟨fun h => exec_frmDec_error (frameDecode_unregistered _ _ _ ((configHw_lookup b2 b3).trans (if_neg h))) s, ?_⟩
  rintro rfl rfl
  have he := hwWith_lookup hwCrc hwLenCheck
  refine ⟨fun h => exec_frmDec_error
    (frameDecode_wrong_length body he rfl (mt (lengthBytes_eq_tlmLen_iff b4 b5).1 h)) s, ?_⟩
  rintro rfl rfl
  refine ⟨fun h => exec_frmDec_error
    ((frameDecode_after_length_check (N := tlmLen) body he rfl fun _ => rfl).1 h) s, fun h => ?_⟩
  have hbody : tlmLen + 2 ≤ body.length := Nat.le_of_add_le_add_right (b := 6) h
  have hP : (body.take tlmLen).length = tlmLen := List.length_take_of_le (by omega)
  have hck : ((body.drop tlmLen).take 2).length = 2 := by simp only [List.length_take, List.length_drop]; omega
  have hB := header_eq_frameHead tlmClass tlmId (b4 := 0x00) (b5 := 0x18) rfl hbody
  have hr := tlmDecode_ok hP.ge
  refine ⟨fun hne => exec_frmDec_error (e := ⟨.checksumMismatch, 0#16⟩) ?_ s,
    fun heq => ⟨_, hr, exec_frmDec_ok (x := (.telemetry _, 32)) ?_ s⟩⟩
  · exact (congrArg _ hB).trans (frameDecode_telemetry_mismatch hP hck ((frameHead_telemetry hP).symm ▸ hne) _)
  · exact (congrArg _ hB).trans (frameDecode_telemetry_ok hP hck ((frameHead_telemetry hP).symm ▸ heq) _ hr)

/-- The instruction `TELEMETRY` is `FRM.DEC` of its candidate frame (log entry 3). -/
theorem exec_telemetry (len : Word) (body : Bytes) (s : State) :
    exec (.telemetry len body) s =
      exec (.frmDec (0xE4 :: 0xEB :: 0x05 :: 0x03 :: len.extractLsb' 8 8 :: len.extractLsb' 0 8 :: body)) s := by
  have hframe : telemetryFrame len body =
      0xE4 :: 0xEB :: 0x05 :: 0x03 :: len.extractLsb' 8 8 :: len.extractLsb' 0 8 :: body := by
    rw [telemetryFrame, be_two_toNat]; rfl
  exact congrArg (fun F => exec (.frmDec F) s) hframe

/-- Settles O27: the outcomes of `FRM.DEC` on a frame whose sync bytes and kind are right. -/
theorem telemetryFrameEndsByFirstFailingCheck : Obligations.TelemetryFrameEndsByFirstFailingCheck := by
  intro len body s B
  rw [exec_telemetry]
  obtain ⟨-, hheader⟩ := frmDecReportsTheFirstFailingCheck s
  obtain ⟨-, hsynced⟩ := hheader 0xE4 0xEB 0x05 0x03 (len.extractLsb' 8 8) (len.extractLsb' 0 8) body
  obtain ⟨-, hkind⟩ := hsynced rfl rfl
  obtain ⟨hwrong, hright⟩ := hkind rfl rfl
  refine ⟨fun hlen => hwrong fun ⟨hhigh, hlow⟩ => hlen ?_, ?_⟩
  · rw [← wordBytes_append len, hhigh, hlow]
    rfl
  · rintro rfl
    obtain ⟨hshort, hwhole⟩ := hright rfl rfl
    exact ⟨fun h => hshort (Nat.add_lt_add_right h 6), fun h => hwhole (Nat.add_le_add_right h 6)⟩

/-- Settles O30 (R88): the encoder's 24 bytes are wrapped, and the frame gives the decoder these bytes. -/
theorem frameRoundTrip : Obligations.FrameRoundTrip := by
  intro p l r hr
  have henc := tlmEncode_eq_flatMap hr
  have hlen := flatMap_bytes_length r
  have hF := frameWrap_eq_frameHead p tlmClass tlmId (hlen.trans_le (by decide))
  have hwf : WellFormedFrame (Config.hwWith p l) _ :=
    wellFormedFrame_of_frameWrap (hwWith_lookup p l) hlen hF
  refine ⟨_, (frameEncode_of_enc_ok _ henc).trans hF, by simp [hlen, tlmLen], hwf, fun X => ?_⟩
  rw [List.append_assoc]
  exact frameDecode_telemetry_ok hlen (wordBytes_length _) rfl X (tlmDecode_flatMap_bytes hr)

end Sys2Proof.Machine

namespace Sys2Proof.Machine

/-! ### When `frame_decode` succeeds (42_framer.md R87) -/

section Success
variable {π : Type} {c : Config π}

/-- What `frame_decode` accepts: a frame of a registered kind that passes every check, its payload accepted by the decoder. -/
theorem frameDecode_ok_inv {B : Bytes} {p : π} {n : Nat} (h : frameDecode c B = .ok (p, n)) :
    ∃ cls id b4 b5 body e N, B = sync1 :: sync2 :: cls :: id :: b4 :: b5 :: body ∧ b4.toNat * 256 + b5.toNat = N ∧
      c.lookup cls id = some e ∧ (c.lenCheck = .strict → N = e.explen) ∧ N + 2 ≤ body.length ∧
      (body.drop N).take 2 = wordBytes (crc16 c.crc (frameHead cls id (body.take N))) := by
  obtain ⟨b0, b1, cls, id, b4, b5, body, rfl⟩ := header_of_length (frameDecode_ok_size h).1
  by_cases hsync : b0 = sync1 ∧ b1 = sync2
  swap
  · cases (frameDecode_bad_sync cls id b4 b5 body hsync).symm.trans h
  obtain ⟨rfl, rfl⟩ := hsync
  obtain he | ⟨e, he⟩ := Option.eq_none_or_eq_some (c.lookup cls id)
  · cases (frameDecode_unregistered b4 b5 body he).symm.trans h
  by_cases hL : c.lenCheck = .strict ∧ b4.toNat * 256 + b5.toNat ≠ e.explen
  · cases (frameDecode_wrong_length body he hL.1 hL.2).symm.trans h
  obtain ⟨N, hN⟩ : ∃ N, b4.toNat * 256 + b5.toNat = N := ⟨_, rfl⟩
  have hL : c.lenCheck = .strict → N = e.explen := fun hc => not_not.1 fun hne => hL ⟨hc, hN ▸ hne⟩
  by_cases hbody : body.length < N + 2
  · cases ((frameDecode_after_length_check body he hN hL).1 (by simp only [List.length_cons]; omega)).symm.trans h
  have hbody := Nat.le_of_not_lt hbody
  have hP : (body.take N).length = N := List.length_take_of_le (by omega)
  have hck : ((body.drop N).take 2).length = 2 := by simp only [List.length_take, List.length_drop]; omega
  have hmax : (body.take N).length ≤ maxPayload := by rw [hP, ← hN]; exact beNat_pair_le_maxPayload b4 b5
  refine ⟨cls, id, b4, b5, body, e, N, rfl, hN, he, hL, hbody, not_not.1 fun hne => ?_⟩
  rw [header_eq_frameHead cls id hN hbody] at h
  cases ((frameDecode_frameHead he hmax (fun hc => hP.trans (hL hc)) hck _).1 hne).symm.trans h

/-- A lawful payload decoder accepts the payload of a well-formed frame, whatever follows the frame. -/
theorem frameDecode_wellFormed_append (hc : c.Lawful) {F : Bytes} (hF : WellFormedFrame c F) (X : Bytes) :
    ∃ p, frameDecode c (F ++ X) = .ok (p, F.length) := by
  obtain ⟨cls, id, e, P, he, hP, hF⟩ := frameWrap_of_wellFormedFrame hF
  obtain ⟨p, hp⟩ := (hc.2 e (mem_registry_of_lookup he)).dec_ok P hP.ge
  have hlen : F.length = 8 + e.explen := by
    cases (frameWrap_eq_frameHead c.crc cls id (frameWrap_ok hF).1).symm.trans hF
    simp [hP]
    omega
  refine ⟨p, ?_⟩
  rw [frameDecode_frameWrap he hP hF, hp, hlen]
  rfl

/-- Settles O29 (R87): what is accepted under `STRICT` is a frame that `frame_wrap` builds, and a lawful decoder accepts the
payload of such a frame. -/
theorem frameDecodeSucceedsExactlyOnWellFormedFrames : Obligations.FrameDecodeSucceedsExactlyOnWellFormedFrames := by
  refine fun π c B hc => ⟨fun hstrict => ⟨?_, ?_⟩, ?_⟩
  · rintro ⟨p, n, h⟩
    obtain ⟨cls, id, b4, b5, body, e, N, rfl, hN, he, hL, hbody, hck⟩ := frameDecode_ok_inv h
    have hP : (body.take N).length = N := List.length_take_of_le (by omega)
    rw [lengthField_header, hN]
    refine ⟨by simp, by simp only [List.length_cons]; omega, ?_⟩
    exact wellFormedFrame_of_frameWrap he (hP.trans (hL hstrict)) (frameWrap_of_checksum c.crc cls id hN hbody hck)
  · rintro ⟨-, -, hF⟩
    obtain ⟨p, hp⟩ := frameDecode_wellFormed_append hc hF (B.drop (8 + lengthField B))
    rw [List.take_append_drop] at hp
    exact ⟨p, _, hp⟩
  · rintro htrust h6 ⟨hsync1, hsync2⟩ hlen e ⟨cls, id, hcls, hid, he⟩ hexp hck
    obtain ⟨b0, b1, b2, b3, b4, b5, body, rfl⟩ := header_of_length h6
    cases hsync1; cases hsync2; cases hcls; cases hid
    rw [lengthField_header] at hlen hexp hck ⊢
    have hok := ((frameDecode_after_length_check body he rfl (by rw [htrust]; nofun)).2 hlen).2 hck
    have hdec := (hc.2 e (mem_registry_of_lookup he)).dec_ok
      ((List.take (6 + (b4.toNat * 256 + b5.toNat)) (sync1 :: sync2 :: cls :: id :: b4 :: b5 :: body)).drop 6)
    obtain ⟨p, hp⟩ := hdec (by simp only [List.length_drop, List.length_take]; omega)
    rw [hp] at hok
    exact ⟨p, hok⟩

end Success

end Sys2Proof.Machine

namespace Sys2Proof.Machine

/-! ### Inverted bits in a telemetry frame (42_framer.md R89) -/

@[simp] theorem flipBit_length (B : Bytes) (k j : Nat) : (flipBit B k j).length = B.length := List.length_modify ..

/-- A bit of the first of two sequences. -/
theorem flipBit_append_left {A B : Bytes} {k j : Nat} (h : k < A.length) :
    flipBit (A ++ B) k j = flipBit A k j ++ B := by
  induction A generalizing k with
  | nil => cases h
  | cons a A ih =>
    cases k with
    | zero => rfl
    | succ k => exact congrArg (List.cons a) (ih (Nat.lt_of_succ_lt_succ h))

/-- A bit of the second of two sequences. -/
theorem flipBit_append_right (A B : Bytes) (k j : Nat) : flipBit (A ++ B) (A.length + k) j = A ++ flipBit B k j := by
  induction A with
  | nil => simp
  | cons a A ih => rw [List.length_cons, Nat.add_right_comm]; exact congrArg (List.cons a) ih

/-- An inverted bit changes the sequence. -/
theorem flipBit_ne {B : Bytes} {k j : Nat} (hk : k < B.length) (hj : j < 8) : flipBit B k j ≠ B := by
  intro h
  have hbyte := congrArg (fun X => X[k]?) h
  simp only [flipBit, List.getElem?_modify_eq, List.getElem?_eq_getElem hk, Option.map_eq_map, Option.map_some,
    Option.some.injEq] at hbyte
  exact xor_twoPow_ne B[k] hj hbyte

/-- A bit of the payload is a bit of the bytes under the checksum. -/
theorem flipBit_frameHead (cls id : Byte) (P : Bytes) (k j : Nat) :
    flipBit (frameHead cls id P) (6 + k) j = frameHead cls id (flipBit P k j) := by
  rw [frameHead, frameHead, flipBit_length, Nat.add_comm]
  rfl

/-- A well-formed telemetry frame: 24 bytes wrapped. -/
theorem wellFormedFrame_hwWith {p : CrcParams} {l : LenCheck} {F : Bytes} (h : WellFormedFrame (Config.hwWith p l) F) :
    ∃ P, P.length = tlmLen ∧ F = frameHead tlmClass tlmId P ++ wordBytes (crc16 p (frameHead tlmClass tlmId P)) := by
  obtain ⟨cls, id, e, P, he, hP, hF⟩ := frameWrap_of_wellFormedFrame h
  have hlookup : (if cls = tlmClass ∧ id = tlmId then some tlmEntry else none) = some e :=
    (configHw_lookup cls id).symm.trans he
  split at hlookup
  · next hkey =>
    obtain ⟨rfl, rfl⟩ := hkey
    cases hlookup
    cases (frameWrap_eq_frameHead p tlmClass tlmId (frameWrap_ok hF).1).symm.trans hF
    exact ⟨P, hP, rfl⟩
  · cases hlookup

section Flips
variable {p : CrcParams} {l : LenCheck} {P : Bytes} {j : Nat}

/-- A bit of the checksum: the checksum bytes are no longer those of the frame, under every parameter set. -/
theorem frameDecode_flip_checksum (hP : P.length = tlmLen) {k : Nat} (hk : k < 2) (hj : j < 8) :
    frameDecode (Config.hwWith p l)
        (flipBit (frameHead tlmClass tlmId P ++ wordBytes (crc16 p (frameHead tlmClass tlmId P))) (30 + k) j) =
      .error ⟨.checksumMismatch, 0#16⟩ := by
  have hhead : (frameHead tlmClass tlmId P).length = 30 := by rw [frameHead_length, hP]; rfl
  have hflip := flipBit_append_right (frameHead tlmClass tlmId P) (wordBytes (crc16 p (frameHead tlmClass tlmId P))) k j
  have hbad := frameDecode_telemetry_mismatch (p := p) (l := l) hP (flipBit_length _ k j) (flipBit_ne hk hj) []
  rw [hhead] at hflip
  rwa [List.append_nil, ← hflip] at hbad

/-- A bit of the payload: the checksum is no longer that of the frame, where the polynomial has its lowest bit set. -/
theorem frameDecode_flip_payload (hp : p.poly.getLsbD 0 = true) (hP : P.length = tlmLen) {k : Nat} (hk : k < tlmLen)
    (hj : j < 8) :
    frameDecode (Config.hwWith p l)
        (flipBit (frameHead tlmClass tlmId P ++ wordBytes (crc16 p (frameHead tlmClass tlmId P))) (6 + k) j) =
      .error ⟨.checksumMismatch, 0#16⟩ := by
  have hin : 6 + k < (frameHead tlmClass tlmId P).length := by rw [frameHead_length, hP]; omega
  have hcrc := crc16_flipBit_ne hp hin hj
  have hne : wordBytes (crc16 p (frameHead tlmClass tlmId P)) ≠
      wordBytes (crc16 p (frameHead tlmClass tlmId (flipBit P k j))) := by
    intro h
    rw [eq_wordBytes_iff (wordBytes_length _), beNat_wordBytes, BitVec.toNat_inj, ← flipBit_frameHead] at h
    exact hcrc h.symm
  have hbad := frameDecode_telemetry_mismatch (p := p) (l := l) ((flipBit_length P k j).trans hP) (wordBytes_length _) hne []
  rwa [List.append_nil, ← flipBit_frameHead, ← flipBit_append_left hin] at hbad

end Flips

/-- The information word after a flip in the class byte. -/
theorem flip_class_info : ∀ j < 8, (tlmClass ^^^ BitVec.twoPow 8 j) ++ tlmId = 0x0503#16 ^^^ BitVec.twoPow 16 (j + 8) := by
  decide

/-- The information word after a flip in the id byte. -/
theorem flip_id_info : ∀ j < 8, tlmClass ++ (tlmId ^^^ BitVec.twoPow 8 j) = 0x0503#16 ^^^ BitVec.twoPow 16 j := by decide

/-- Every other pair is unregistered (30_encoding.md R47). -/
theorem configHw_lookup_none {cls id : Byte} (h : ¬ (cls = tlmClass ∧ id = tlmId)) : Config.hw.lookup cls id = none :=
  (configHw_lookup cls id).trans (if_neg h)

/-- Settles O31 (R89): a flip before byte 6 fails the check on its byte; behind it, either the checksum or the bytes that it
covers have changed, and a changed checksum under XMODEM is a different one. -/
theorem singleBitFlipNeverDecodes : Obligations.SingleBitFlipNeverDecodes := by
  intro F k j s hF hk hj
  obtain ⟨P, hP, rfl⟩ := wellFormedFrame_hwWith (p := hwCrc) (l := hwLenCheck) hF
  have hcrc : hwCrc.poly.getLsbD 0 = true := by decide
  by_cases h6 : 6 ≤ k
  · have hbad : frameDecode Config.hw (flipBit (frameHead tlmClass tlmId P ++
        wordBytes (crc16 hwCrc (frameHead tlmClass tlmId P))) k j) = .error ⟨.checksumMismatch, 0#16⟩ := by
      by_cases h30 : 30 ≤ k
      · obtain ⟨m, rfl⟩ := Nat.exists_eq_add_of_le h30
        exact frameDecode_flip_checksum hP (by omega) hj
      · obtain ⟨m, rfl⟩ := Nat.exists_eq_add_of_le h6
        exact frameDecode_flip_payload hcrc hP (by simp only [tlmLen]; omega) hj
    rw [exec_frmDec_error hbad, if_neg (by omega), if_neg (by omega), if_neg (by omega), if_neg (by omega)]
    rfl
  · rw [frameHead_telemetry hP]
    generalize wordBytes _ = ck
    have hflip : ∀ b : Byte, b ^^^ BitVec.twoPow 8 j ≠ b := fun b => xor_twoPow_ne b hj
    obtain rfl | rfl | rfl | rfl | rfl | rfl : k = 0 ∨ k = 1 ∨ k = 2 ∨ k = 3 ∨ k = 4 ∨ k = 5 := by omega
    · exact exec_frmDec_error (frameDecode_bad_sync _ _ _ _ _ fun h => hflip _ h.1) s
    · exact exec_frmDec_error (frameDecode_bad_sync _ _ _ _ _ fun h => hflip _ h.2) s
    · have hbad := frameDecode_unregistered (id := tlmId) 0x00 0x18 (P ++ ck)
        (configHw_lookup_none fun h => hflip tlmClass h.1)
      rw [flip_class_info j hj] at hbad
      exact exec_frmDec_error hbad s
    · have hbad := frameDecode_unregistered (cls := tlmClass) 0x00 0x18 (P ++ ck)
        (configHw_lookup_none fun h => hflip tlmId h.2)
      rw [flip_id_info j hj] at hbad
      exact exec_frmDec_error hbad s
    · exact exec_frmDec_error (frameDecode_wrong_length _ (hwWith_lookup hwCrc hwLenCheck) rfl
        (mt (lengthBytes_eq_tlmLen_iff _ _).1 fun h => hflip _ h.1)) s
    · exact exec_frmDec_error (frameDecode_wrong_length _ (hwWith_lookup hwCrc hwLenCheck) rfl
        (mt (lengthBytes_eq_tlmLen_iff _ _).1 fun h => hflip _ h.2)) s

/-! ### Inverted bits in the length field under `TRUST` (42_framer.md R86, R89) -/

section Trust
variable {p : CrcParams} {b4 b5 : Byte} {body : Bytes}

/-- A telemetry frame whose length field has become larger announces bytes that are not there. -/
theorem frameDecode_trust_longer (hbody : body.length = 26) (h : 24 < b4.toNat * 256 + b5.toNat) :
    frameDecode (Config.hwWith p .trust) (0xE4 :: 0xEB :: 0x05 :: 0x03 :: b4 :: b5 :: body) =
      .error ⟨.frameTruncated, 0#16⟩ :=
  (payloadLengthChecker p b4 b5 body).2.1 (by simp only [List.length_cons]; omega)

/-- One whose length field has become smaller is whole, but fails its checksum or has too few bytes for the decoder. -/
theorem frameDecode_trust_shorter (hbody : body.length = 26) (h : b4.toNat * 256 + b5.toNat < 24) :
    frameDecode (Config.hwWith p .trust) (0xE4 :: 0xEB :: 0x05 :: 0x03 :: b4 :: b5 :: body) =
        .error ⟨.checksumMismatch, 0#16⟩ ∨
      frameDecode (Config.hwWith p .trust) (0xE4 :: 0xEB :: 0x05 :: 0x03 :: b4 :: b5 :: body) =
        .error ⟨.decodingLength, 0#16⟩ := by
  obtain ⟨-, -, hwhole⟩ := payloadLengthChecker p b4 b5 body
  obtain ⟨hbad, hgood⟩ := hwhole (by simp only [List.length_cons]; omega)
  exact (ne_or_eq _ _).imp hbad fun hck => (hgood hck).1 h

end Trust

/-- Settles O32 (R89): checksum flips as above; under `TRUST` the length field of the flipped header is larger than 24, or 16
or 8, and `frame_decode` judges the frame by that length (R86). -/
theorem checksumAndLengthFlipsForEveryCrc : Obligations.ChecksumAndLengthFlipsForEveryCrc := by
  intro p l F k j hF hj
  obtain ⟨P, hP, rfl⟩ := wellFormedFrame_hwWith hF
  refine ⟨?_, ?_, ?_⟩
  · rintro (rfl | rfl)
    · exact frameDecode_flip_checksum hP (k := 0) (by decide) hj
    · exact frameDecode_flip_checksum hP (k := 1) (by decide) hj
  all_goals
    have hbody : (P ++ wordBytes (crc16 p (frameHead tlmClass tlmId P))).length = 26 := by simp [hP, tlmLen]
    rw [frameHead_telemetry hP] at hbody ⊢
  · have hhigh : ∀ j < 8, 24 < (0x00 ^^^ BitVec.twoPow 8 j : Byte).toNat * 256 + (0x18 : Byte).toNat := by decide
    have hlow : ∀ j < 8, j ≠ 3 ∧ j ≠ 4 →
        24 < (0x00 : Byte).toNat * 256 + (0x18 ^^^ BitVec.twoPow 8 j : Byte).toNat := by
      decide
    rintro rfl (rfl | ⟨rfl, hj34⟩)
    · exact frameDecode_trust_longer hbody (hhigh j hj)
    · exact frameDecode_trust_longer hbody (hlow j hj hj34)
  · rintro rfl rfl (rfl | rfl)
    · exact frameDecode_trust_shorter hbody (by decide)
    · exact frameDecode_trust_shorter hbody (by decide)

end Sys2Proof.Machine

namespace Sys2Proof.Machine

/-! ### Which status an operation can end with (60_exceptions.md R127) -/

/-- With a lawful registry `frame_decode` never raises `EncodingRangeError`. -/
theorem frameDecode_error_ne_encodingRange {π : Type} {c : Config π} (hc : c.Lawful) {B : Bytes} {e : Raised}
    (h : frameDecode c B = .error e) : e.name ≠ .encodingRange := by
  by_cases h6 : B.length < 6
  · cases (frameDecode_short c h6).symm.trans h
    decide
  obtain ⟨b0, b1, b2, b3, b4, b5, body, rfl⟩ := header_of_length (Nat.le_of_not_lt h6)
  by_cases hsync : b0 = sync1 ∧ b1 = sync2
  · obtain ⟨rfl, rfl⟩ := hsync
    obtain hname | rfl | rfl | rfl | ⟨en, hen, P, hdec⟩ := frameDecode_synced_error h
    · simp [hname]
    · decide
    · decide
    · decide
    · rw [(hc.2 en hen).dec_error P e hdec]
      decide
  · cases (frameDecode_bad_sync b2 b3 b4 b5 body hsync).symm.trans h
    decide

/-- `frame_wrap` raises `EncodingRangeError` or nothing. -/
theorem frameWrap_error_name {p : CrcParams} {cls id : Byte} {P : Bytes} {e : Raised} (h : frameWrap p cls id P = .error e) :
    e.name = .encodingRange := by
  by_cases hP : P.length ≤ maxPayload
  · cases (frameWrap_of_le p cls id hP).symm.trans h
  · cases (frameWrap_too_long p cls id (Nat.lt_of_not_le hP)).symm.trans h
    rfl

/-- `frame_encode` of a telemetry payload raises `EncodingRangeError` or nothing. -/
theorem frameEncode_error_name {x : Payload} {e : Raised} (h : frameEncode Config.hw x.entry x = .error e) :
    e.name = .encodingRange := by
  obtain ⟨r⟩ := x
  cases hr : tlmEncode r with
  | error e' =>
    cases (frameEncode_of_enc_error (e := tlmEntry) (x := .telemetry r) Config.hw hr).symm.trans h
    exact tlmEncode_error_name hr
  | ok P => exact frameWrap_error_name ((frameEncode_of_enc_ok (e := tlmEntry) (x := .telemetry r) Config.hw hr).symm.trans h)

/-- The statuses an operation that ends in one of the two ways can have. -/
theorem finish_status_mem {α : Type} {b : Block} {asResult : α → Result} {x : Except Raised α} {l : List Status}
    (hok : .ok ∈ l) (herr : ∀ e, x = .error e → errorStatus e.name ∈ l) :
    (finish b asResult x).completion.status ∈ l := by
  obtain h | ⟨e, he, h⟩ := finish_status b asResult x
  · rwa [h]
  · rw [h]
    exact herr e he

/-- `FRM.DEC` may end with every error but `EncodingRangeError`. -/
theorem errorStatus_mem_frmDec (B : Bytes) : ∀ {n : ErrorName}, n ≠ .encodingRange →
    errorStatus n ∈ (Instr.frmDec B).mayEndWith
  | .encodingRange, h => absurd rfl h
  | .decodingLength, _ | .frameSync, _ | .unknownPayloadType, _ | .frameTruncated, _ | .checksumMismatch, _ => by
    simp [errorStatus, Instr.mayEndWith]

/-- `TELEMETRY` ends in one of its four ways (log entry 3). -/
theorem exec_telemetry_status (len : Word) (body : Bytes) (s : State) :
    ∃ c, exec (.telemetry len body) s = .next { s with completion := some c } ∧
      c.status ∈ (Instr.telemetry len body).mayEndWith := by
  obtain ⟨hwrong, hright⟩ := telemetryFrameEndsByFirstFailingCheck len body s
  by_cases hlen : len = 24#16
  · obtain ⟨hshort, hwhole⟩ := hright hlen
    by_cases hbody : body.length < 26
    · exact ⟨_, hshort hbody, by simp [Instr.mayEndWith]⟩
    · obtain ⟨hbad, hgood⟩ := hwhole (Nat.le_of_not_lt hbody)
      obtain hck | hck := ne_or_eq ((body.drop 24).take 2) _
      · exact ⟨_, hbad hck, by simp [Instr.mayEndWith]⟩
      · obtain ⟨r, -, hexec⟩ := hgood hck
        exact ⟨_, hexec, by simp [Instr.mayEndWith]⟩
  · exact ⟨_, hwrong hlen, by simp [Instr.mayEndWith]⟩

/-- Settles O50 (R127): the errors that the codec, the framer's two halves and the four outcomes of `TELEMETRY` can give. -/
theorem statusesOfEachOperation : Obligations.StatusesOfEachOperation := by
  intro i s t c h hc
  obtain rfl := eq_afterOp_of_exec h
  cases hc
  cases i with
  | crcInit | crcByte | crcRead | crcBlk | asmFeed | asmClr => exact List.mem_singleton_self _
  | pldEnc r => exact finish_status_mem (.head _) fun e he => tlmEncode_error_name he ▸ .tail _ (.head _)
  | pldDec P => exact finish_status_mem (.head _) fun e he => tlmDecode_error he ▸ .tail _ (.head _)
  | frmWrap cls id P => exact finish_status_mem (.head _) fun e he => frameWrap_error_name he ▸ .tail _ (.head _)
  | frmEnc x => exact finish_status_mem (.head _) fun e he => frameEncode_error_name he ▸ .tail _ (.head _)
  | frmDec B =>
    exact finish_status_mem (.head _) fun e he =>
      errorStatus_mem_frmDec B (frameDecode_error_ne_encodingRange configHw_lawful he)
  | telemetry len body =>
    obtain ⟨c, hexec, hstatus⟩ := exec_telemetry_status len body s
    have hc := congrArg State.completion (eq_afterOp_of_exec hexec)
    cases hc
    exact hstatus

end Sys2Proof.Machine

namespace Sys2Proof.Machine

/-! ### The quiescent form (43_assembler.md R101) -/

/-- A buffer begins with the sync pair. -/
theorem beginsWithSync_iff {B : Bytes} : BeginsWithSync B ↔ ∃ t, B = sync1 :: sync2 :: t := by
  constructor
  · rintro ⟨h0, h1⟩
    match B, h0, h1 with
    | b0 :: b1 :: t, h0, h1 =>
      cases h0
      cases h1
      exact ⟨t, rfl⟩
  · rintro ⟨t, rfl⟩
    exact ⟨rfl, rfl⟩

section Quiescence
variable {π : Type} {c : Config π} {buf : Bytes}

/-- With a lawful registry `frame_decode` waits for more bytes only behind a header of a registered kind that passes the
length check (42_framer.md R83). -/
theorem frameDecode_truncated_inv (hc : c.Lawful) {cls id b4 b5 : Byte} {body : Bytes} {x : Raised}
    (h : frameDecode c (sync1 :: sync2 :: cls :: id :: b4 :: b5 :: body) = .error x) (hx : x.name = .frameTruncated) :
    ∃ e, c.lookup cls id = some e ∧ (c.lenCheck = .strict → b4.toNat * 256 + b5.toNat = e.explen) ∧
      body.length < b4.toNat * 256 + b5.toNat + 2 := by
  obtain he | ⟨e, he⟩ := Option.eq_none_or_eq_some (c.lookup cls id)
  · cases (frameDecode_unregistered b4 b5 body he).symm.trans h
    cases hx
  by_cases hL : c.lenCheck = .strict ∧ b4.toNat * 256 + b5.toNat ≠ e.explen
  · cases (frameDecode_wrong_length body he hL.1 hL.2).symm.trans h
    cases hx
  have hL : c.lenCheck = .strict → b4.toNat * 256 + b5.toNat = e.explen := fun hs => not_not.1 fun hne => hL ⟨hs, hne⟩
  refine ⟨e, he, hL, Nat.lt_of_not_le fun hbody => ?_⟩
  obtain ⟨hbad, hgood⟩ := (frameDecode_after_length_check body he rfl hL).2 (by simp only [List.length_cons]; omega)
  obtain hck | hck := ne_or_eq (beNat _) _
  · cases (hbad hck).symm.trans h
    cases hx
  · have hdec := (hgood hck).symm.trans h
    cases hP : e.dec _ with
    | ok p => rw [hP] at hdec; cases hdec
    | error y =>
      rw [hP] at hdec
      cases hdec
      cases (hc.2 e (mem_registry_of_lookup he)).dec_error _ _ hP
      cases hx

/-- On a quiescent buffer the drain loop exits at once. -/
theorem asmPass_of_quiescent (h : Quiescent c buf) : asmPass c buf = .wait := by
  obtain rfl | rfl | ⟨-, hlen, hsync⟩ | ⟨h6, ⟨hsync1, hsync2⟩, e, ⟨cls, id, hcls, hid, he⟩, hL, hshort⟩ := h
  · exact asmPass_nil c
  · exact asmPass_lone_sync1
  · obtain ⟨t, rfl⟩ := beginsWithSync_iff.1 hsync
    exact asmPass_without_header (Nat.lt_of_add_lt_add_right (n := 2) (Nat.lt_succ_of_le hlen))
  · obtain ⟨b0, b1, b2, b3, b4, b5, body, rfl⟩ := header_of_length h6
    cases hsync1; cases hsync2; cases hcls; cases hid
    rw [lengthField_header] at hL hshort
    exact asmPass_of_truncated ((frameDecode_after_length_check body he rfl hL).1 hshort) rfl

/-- Everything a pass can decide: to wait on nothing or on a lone first sync byte, to discard a byte, or, behind the sync
pair, what `frame_decode` says. -/
theorem asmPass_cases (c : Config π) (buf : Bytes) :
    ((buf = [] ∨ buf = [sync1]) ∧ asmPass c buf = .wait) ∨ asmPass c buf = .discard ∨
    ∃ t, buf = sync1 :: sync2 :: t ∧
      ((∃ p n, asmPass c buf = .emit p n) ∨
        ∃ x, frameDecode c buf = .error x ∧
          (x.name = .frameTruncated ∧ asmPass c buf = .wait ∨ x.name ≠ .frameTruncated ∧ asmPass c buf = .drop x)) := by
  match buf with
  | [] => exact .inl ⟨.inl rfl, asmPass_nil c⟩
  | b0 :: t =>
    by_cases h0 : b0 = sync1
    swap
    · exact .inr (.inl (asmPass_ne_sync1 t h0))
    subst h0
    match t with
    | [] => exact .inl ⟨.inr rfl, asmPass_lone_sync1⟩
    | b1 :: t =>
      by_cases h1 : b1 = sync2
      swap
      · exact .inr (.inl (asmPass_ne_sync2 t h1))
      subst h1
      refine .inr (.inr ⟨t, rfl, ?_⟩)
      cases hdec : frameDecode c (sync1 :: sync2 :: t) with
      | ok x => exact .inl ⟨x.1, x.2, asmPass_of_accepted hdec⟩
      | error x =>
        by_cases hx : x.name = .frameTruncated
        · exact .inr ⟨x, rfl, .inl ⟨hx, asmPass_of_truncated hdec hx⟩⟩
        · exact .inr ⟨x, rfl, .inr ⟨hx, asmPass_of_rejected hdec hx⟩⟩

/-- With a lawful registry, a buffer on which the drain loop exits is quiescent. -/
theorem quiescent_of_asmPass (hc : c.Lawful) (h : asmPass c buf = .wait) : Quiescent c buf := by
  obtain ⟨hbuf, -⟩ | hp | ⟨t, rfl, ⟨p, n, hp⟩ | ⟨x, hdec, ⟨hx, -⟩ | ⟨-, hp⟩⟩⟩ := asmPass_cases c buf
  · exact hbuf.elim .inl fun h => .inr (.inl h)
  · cases hp.symm.trans h
  · cases hp.symm.trans h
  · match t, hdec with
    | [], _ | [_], _ | [_, _], _ | [_, _, _], _ => exact .inr (.inr (.inl ⟨by simp, by simp, rfl, rfl⟩))
    | cls :: id :: b4 :: b5 :: body, hdec =>
      obtain ⟨e, he, hL, hshort⟩ := frameDecode_truncated_inv hc hdec hx
      rw [← lengthField_header sync1 sync2 cls id b4 b5 body] at hL hshort
      refine .inr (.inr (.inr ⟨by simp, ⟨rfl, rfl⟩, e, ⟨cls, id, rfl, rfl, he⟩, hL, ?_⟩))
      simp only [List.length_cons]
      omega
  · cases hp.symm.trans h

end Quiescence

/-! ### The drain loop, by induction on its passes (43_assembler.md R97) -/

section Drain
variable {π : Type} {c : Config π}

/-- What holds where the loop exits, and is kept by a discarded byte, by a dropped byte and by an emitted frame, holds of
every buffer and what draining it gives. -/
theorem asmDrain_induction {motive : Bytes → List (Event π) × Bytes → Prop}
    (wait : ∀ buf, asmPass c buf = .wait → motive buf ([], buf))
    (discard : ∀ b t r, asmPass c (b :: t) = .discard → motive t r → motive (b :: t) r)
    (drop : ∀ b t e r, asmPass c (b :: t) = .drop e → motive t r → motive (b :: t) (.error e.name e.info :: r.1, r.2))
    (emit : ∀ buf p n r, asmPass c buf = .emit p n → motive (buf.drop n) r → motive buf (.payload p :: r.1, r.2))
    (buf : Bytes) : motive buf (asmDrain c buf) := by
  induction hn : buf.length using Nat.strongRecOn generalizing buf with
  | ind n ih =>
    subst hn
    cases hp : asmPass c buf with
    | wait => rw [asmDrain_wait hp]; exact wait buf hp
    | emit p n =>
      obtain ⟨h8, hle⟩ := asmPass_emit_size hp
      rw [asmDrain_emit hp]
      exact emit buf p n _ hp (ih _ (by rw [List.length_drop]; omega) _ rfl)
    | discard =>
      cases buf with
      | nil => cases (asmPass_nil c).symm.trans hp
      | cons b t => rw [asmDrain_discard hp]; exact discard b t _ hp (ih _ (Nat.lt_succ_self _) t rfl)
    | drop e =>
      cases buf with
      | nil => cases (asmPass_nil c).symm.trans hp
      | cons b t => rw [asmDrain_drop hp]; exact drop b t e _ hp (ih _ (Nat.lt_succ_self _) t rfl)

/-- Draining a buffer to which bytes are appended is draining the buffer, and then what it leaves with these bytes. -/
theorem asmDrain_append (buf X : Bytes) :
    asmDrain c (buf ++ X) =
      ((asmDrain c buf).1 ++ (asmDrain c ((asmDrain c buf).2 ++ X)).1, (asmDrain c ((asmDrain c buf).2 ++ X)).2) := by
  refine asmDrain_induction
    (motive := fun buf r => asmDrain c (buf ++ X) = (r.1 ++ (asmDrain c (r.2 ++ X)).1, (asmDrain c (r.2 ++ X)).2))
    (fun buf _ => rfl) (fun b t r hp ih => ?_) (fun b t e r hp ih => ?_) (fun buf p n r hp ih => ?_) buf
  · have hp' := (asmPass_append X (by rw [hp]; nofun)).trans hp
    exact (asmDrain_discard hp').trans ih
  · have hp' : asmPass c (b :: (t ++ X)) = .drop e := (asmPass_append X (by rw [hp]; nofun)).trans hp
    rw [List.cons_append, asmDrain_drop hp', ih]
    rfl
  · have hp' := (asmPass_append X (by rw [hp]; nofun)).trans hp
    rw [asmDrain_emit hp', List.drop_append_of_le_length (asmPass_emit_size hp).2, ih]
    rfl

/-- Settles O42 (R102), by induction on the passes of the first drain: each decides the same with the later bytes behind. -/
theorem chunkingDoesNotMatter : Obligations.ChunkingDoesNotMatter := by
  intro π c abuf D1 D2
  have h := asmDrain_append (c := c) (abuf ++ D1) D2
  rwa [List.append_assoc] at h

/-- Settles O40 (R100), by induction on the passes: each takes a byte or more from the front for at most one event. -/
theorem drainIsBoundedByTheBuffer : Obligations.DrainIsBoundedByTheBuffer := by
  intro π c abuf D
  refine asmDrain_induction (c := c) (motive := fun buf r => r.1.length ≤ buf.length ∧ r.2 <:+ buf)
    (fun buf _ => ⟨Nat.zero_le _, List.suffix_rfl⟩) (fun b t r _ ih => ?_) (fun b t e r _ ih => ?_)
    (fun buf p n r hp ih => ?_) (abuf ++ D)
  · exact ⟨Nat.le_succ_of_le ih.1, ih.2.trans (List.suffix_cons b t)⟩
  · exact ⟨Nat.succ_le_succ ih.1, ih.2.trans (List.suffix_cons b t)⟩
  · obtain ⟨h8, hle⟩ := asmPass_emit_size hp
    obtain ⟨hlen, hsuffix⟩ := ih
    rw [List.length_drop] at hlen
    exact ⟨by simp only [List.length_cons]; omega, hsuffix.trans (List.drop_suffix n buf)⟩

/-- A pass drops a byte for an error of `frame_decode` behind the sync pair. -/
theorem asmPass_drop_inv {buf : Bytes} {e : Raised} (h : asmPass c buf = .drop e) :
    (∃ t, buf = sync1 :: sync2 :: t) ∧ frameDecode c buf = .error e ∧ e.name ≠ .frameTruncated := by
  obtain ⟨-, hp⟩ | hp | ⟨t, ht, ⟨p, n, hp⟩ | ⟨x, hdec, ⟨-, hp⟩ | ⟨hx, hp⟩⟩⟩ := asmPass_cases c buf
  · cases hp.symm.trans h
  · cases hp.symm.trans h
  · cases hp.symm.trans h
  · cases hp.symm.trans h
  · cases hp.symm.trans h
    exact ⟨⟨t, ht⟩, hdec, hx⟩

/-- The errors that can be an event (60_exceptions.md R127). -/
def EventError (name : ErrorName) (info : Word) : Prop :=
  name = .unknownPayloadType ∨ (name = .decodingLength ∧ info = 0#16) ∨ (name = .checksumMismatch ∧ info = 0#16)

/-- With a lawful registry every dropped byte stands for one of these errors. -/
theorem eventError_of_asmPass_drop (hc : c.Lawful) {buf : Bytes} {e : Raised} (h : asmPass c buf = .drop e) :
    EventError e.name e.info := by
  obtain ⟨⟨t, rfl⟩, hdec, hne⟩ := asmPass_drop_inv h
  obtain hname | rfl | rfl | rfl | ⟨en, hen, P, hP⟩ := frameDecode_synced_error hdec
  · exact .inl hname
  · exact .inr (.inl ⟨rfl, rfl⟩)
  · exact absurd rfl hne
  · exact .inr (.inr ⟨rfl, rfl⟩)
  · rw [(hc.2 en hen).dec_error P e hP]
    exact .inr (.inl ⟨rfl, rfl⟩)

/-- Settles O39, by induction on the passes: only a dropped byte gives an error event. -/
theorem assemblerErrorEvents : Obligations.AssemblerErrorEvents := by
  intro π c abuf D name info hc
  refine asmDrain_induction (c := c) (motive := fun _ r => .error name info ∈ r.1 → EventError name info)
    (fun buf _ => nofun) (fun b t r _ ih => ih) (fun b t e r hp ih h => ?_) (fun buf p n r _ ih h => ?_) (abuf ++ D)
  · obtain heq | h := List.mem_cons.1 h
    · cases heq
      exact eventError_of_asmPass_drop hc hp
    · exact ih h
  · obtain heq | h := List.mem_cons.1 h
    · cases heq
    · exact ih h

/-- Feeding leaves a buffer on which the loop exits. -/
theorem asmPass_asmFeed (abuf D : Bytes) : asmPass c (asmFeed c abuf D).2 = .wait := asmLoop_residue c (abuf ++ D) 0

/-- The bounds of `MAX_FRAME` (R8): a header and a checksum at least; under `STRICT` the frame of any registered kind, under
`TRUST` any frame. -/
theorem minFrame_le_maxFrame (c : Config π) : 8 ≤ c.maxFrame := by
  unfold Config.maxFrame
  cases c.lenCheck <;> simp only [hdrLen, cksLen] <;> omega

theorem frame_le_maxFrame {e : Entry π} {N : Nat} (he : e ∈ c.registry) (hN : N ≤ maxPayload)
    (hL : c.lenCheck = .strict → N = e.explen) : 8 + N ≤ c.maxFrame := by
  unfold Config.maxFrame
  cases hl : c.lenCheck with
  | strict =>
    have hmax : e.explen ≤ (c.registry.map Entry.explen).foldr max 0 :=
      List.le_max_of_le' 0 (List.mem_map_of_mem he) (Nat.le_refl _)
    have hN := hL hl
    simp only [hdrLen, cksLen]
    omega
  | trust =>
    simp only [hdrLen, cksLen]
    omega

/-- A quiescent buffer is shorter than `MAX_FRAME`. -/
theorem quiescent_length_lt {buf : Bytes} (h : Quiescent c buf) : buf.length < c.maxFrame := by
  have h8 := minFrame_le_maxFrame c
  obtain rfl | rfl | ⟨-, hlen, -⟩ | ⟨h6, -, e, ⟨cls, id, -, -, he⟩, hL, hshort⟩ := h
  · simp only [List.length_nil]; omega
  · simp only [List.length_singleton]; omega
  · omega
  · obtain ⟨b0, b1, b2, b3, b4, b5, body, rfl⟩ := header_of_length h6
    have hN : lengthField (b0 :: b1 :: b2 :: b3 :: b4 :: b5 :: body) ≤ maxPayload := by
      rw [lengthField_header]
      exact beNat_pair_le_maxPayload b4 b5
    exact Nat.lt_of_lt_of_le hshort (frame_le_maxFrame (mem_registry_of_lookup he) hN hL)

/-- A finite `abuf` of a build of this spec holds `MAX_FRAME` bytes (R7, D10). -/
theorem maxFrame_le_asmBufCap (hc : c.Lawful) {cap : Nat} (h : c.asmBufCap = some cap) : c.maxFrame ≤ cap := by
  have hwf := hc.1
  simp only [Config.wf, h, Bool.and_eq_true, decide_eq_true_eq] at hwf
  exact hwf.1.2

/-- Settles O41 (R101): what the loop leaves is what it would wait on, and a buffer it waits on has one of the four forms. -/
theorem feedLeavesAQuiescentBuffer : Obligations.FeedLeavesAQuiescentBuffer := by
  refine fun π c hc => ⟨.inl rfl, fun abuf D => quiescent_of_asmPass hc (asmPass_asmFeed abuf D), fun buf h => ?_⟩
  have hlt := quiescent_length_lt h
  refine ⟨hlt, fun b => ?_⟩
  have hle : (buf ++ [b]).length ≤ c.maxFrame := by
    rw [List.length_append]
    exact hlt
  exact ⟨hle, fun cap hcap => hle.trans (maxFrame_le_asmBufCap hc hcap)⟩

end Drain

end Sys2Proof.Machine

namespace Sys2Proof.Machine

/-! ### `ASM.FEED` at the port (43_assembler.md R98) -/

/-- The state after `ASM.FEED D`. -/
theorem afterOp_asmFeed (s : State) (D : Bytes) :
    afterOp s (.asmFeed D) = { s with abuf := (asmFeed Config.hw s.abuf D).2,
                                      completion := completed (.events (asmFeed Config.hw s.abuf D).1) } := rfl

/-- The completion of `ASM.FEED D` (R98). -/
theorem operate_asmFeed_completion (D : Bytes) (b : Block) :
    (operate (.asmFeed D) b).completion = ⟨.ok, 0#16, .events (asmFeed Config.hw b.abuf D).1⟩ := rfl

/-- Feeding nothing to a buffer on which the loop exits. -/
theorem asmFeed_nil {π : Type} {c : Config π} {abuf : Bytes} (h : asmPass c abuf = .wait) : asmFeed c abuf [] = ([], abuf) := by
  rw [asmFeed, List.append_nil]
  exact asmDrain_wait h

/-- Settles O36 (R98): the port, and that nothing is decided on a quiescent buffer. -/
theorem asmFeedAppendsAndDrains : Obligations.AsmFeedAppendsAndDrains := by
  refine fun D s => ⟨exec_eq_next _ s, fun hq => ?_⟩
  rw [exec_eq_next, afterOp_asmFeed, asmFeed_nil (asmPass_of_quiescent hq)]

/-! ### The invariant of the machine (43_assembler.md R101) -/

/-- An operation leaves a quiescent buffer quiescent. -/
theorem quiescent_operate {b : Block} (i : Instr) (h : Quiescent Config.hw b.abuf) :
    Quiescent Config.hw (operate i b).block.abuf := by
  by_cases hw : i.writesAbuf = false
  · rwa [operate_abuf hw]
  · cases i with
    | asmFeed D => exact quiescent_of_asmPass configHw_lawful (asmPass_asmFeed b.abuf D)
    | asmClr => exact .inl rfl
    | _ => exact absurd rfl hw

/-- Settles O47 (R20): the buffer is empty at reset. -/
theorem resetIsQuiescent : Obligations.ResetIsQuiescent := .inl reset_abuf

/-- Settles O48, by what a step can find: nothing, a reset, or a carrier, which is an operation or raises an error or is
refused. -/
theorem everyStepKeepsTheBufferQuiescent : Obligations.EveryStepKeepsTheBufferQuiescent := by
  intro s t hq h
  rw [step] at h
  obtain ⟨-, hf⟩ | ⟨rest, -, hf⟩ | ⟨c, rest, -, hf⟩ := fetch_cases s
  · rw [hf] at h
    cases h
    exact hq
  · rw [hf] at h
    cases h
    exact .inl rfl
  · rw [hf] at h
    cases hdec : decode c with
    | ok i =>
      simp only [hdec] at h
      obtain rfl := eq_afterOp_of_exec h
      exact quiescent_operate i hq
    | error e =>
      simp only [hdec] at h
      obtain ⟨r, -, rfl⟩ := onDecodeError_next h
      exact hq

/-! ### Feeding in pieces (30_encoding.md R55, 43_assembler.md R102, R104) -/

/-- Pushing the bytes one by one gives the buffer and the events of feeding them at once. -/
theorem afterOps_asmPush : ∀ (D : Bytes) (s : State), asmPass Config.hw s.abuf = .wait →
    (afterOps s (D.flatMap Pseudo.asmPush)).abuf = (asmFeed Config.hw s.abuf D).2 ∧
      (afterOps s (D.flatMap Pseudo.asmPush)).crcr = s.crcr ∧
      eventsOf (completionsOf s (D.flatMap Pseudo.asmPush)) = (asmFeed Config.hw s.abuf D).1
  | [], s, h => by
    rw [asmFeed_nil h]
    exact ⟨rfl, rfl, rfl⟩
  | b :: D, s, _ => by
    obtain ⟨habuf, hcrcr, hevents⟩ := afterOps_asmPush D (afterOp s (.asmFeed [b])) (asmPass_asmFeed s.abuf [b])
    rw [show b :: D = [b] ++ D from rfl, chunkingDoesNotMatter]
    exact ⟨habuf, hcrcr, congrArg _ hevents⟩

/-- Settles O43 (R55), by induction on the bytes with R102. -/
theorem pushingBytesEqualsFeeding : Obligations.PushingBytesEqualsFeeding := fun D s hq =>
  ⟨_, _, runOps_eq _ s, afterOps_asmPush D s (asmPass_of_quiescent hq)⟩

/-- Pieces of which every beginning makes the loop wait are gathered in the buffer without an event. -/
theorem afterOps_waiting_pieces : ∀ (pieces : List Bytes) (s : State),
    (∀ A, A <+: s.abuf ++ pieces.flatten → asmPass Config.hw A = .wait) →
    (afterOps s (pieces.map .asmFeed)).abuf = s.abuf ++ pieces.flatten ∧
      (afterOps s (pieces.map .asmFeed)).crcr = s.crcr ∧
      completionsOf s (pieces.map .asmFeed) = List.replicate pieces.length ⟨.ok, 0#16, .events []⟩
  | [], s, _ => ⟨(List.append_nil _).symm, rfl, rfl⟩
  | D :: pieces, s, h => by
    have hfeed : asmFeed Config.hw s.abuf D = ([], s.abuf ++ D) :=
      asmDrain_wait (h _ ⟨pieces.flatten, by rw [List.flatten_cons, List.append_assoc]⟩)
    have hD : (afterOp s (.asmFeed D)).abuf = s.abuf ++ D := by rw [afterOp_asmFeed, hfeed]
    have hc : (operate (.asmFeed D) s.toBlock).completion = ⟨.ok, 0#16, .events []⟩ := by
      rw [operate_asmFeed_completion, hfeed]
    have ih := afterOps_waiting_pieces pieces (afterOp s (.asmFeed D))
    rw [hD, List.append_assoc, ← List.flatten_cons] at ih
    obtain ⟨habuf, hcrcr, hcs⟩ := ih h
    exact ⟨habuf, hcrcr, by rw [List.map_cons, completionsOf_cons, hc, hcs]; rfl⟩

/-! ### Telemetry frames in the stream (43_assembler.md R98, R104) -/

section Frames
variable {r : Record} {F : Bytes}

/-- The frame of an in-range record, whatever bytes follow it, is emitted. -/
theorem asmPass_frame (hr : r.inRange = true) (hF : frameEncode Config.hw tlmEntry (.telemetry r) = .ok F) :
    F.length = 32 ∧ (∃ t, F = sync1 :: sync2 :: t) ∧ ∀ X, asmPass Config.hw (F ++ X) = .emit (.telemetry r) 32 := by
  obtain ⟨F', hF', hlen, ⟨-, hsync, -⟩, hdec⟩ := frameRoundTrip hwCrc hwLenCheck r hr
  cases hF'.symm.trans hF
  obtain ⟨t, rfl⟩ := beginsWithSync_iff.1 hsync
  exact ⟨hlen, ⟨t, rfl⟩, fun X => asmPass_of_accepted (hdec X)⟩

/-- Draining a buffer that begins with such a frame: its payload, and then the bytes behind it. -/
theorem asmDrain_frame (hr : r.inRange = true) (hF : frameEncode Config.hw tlmEntry (.telemetry r) = .ok F) (X : Bytes) :
    asmDrain Config.hw (F ++ X) =
      (.payload (.telemetry r) :: (asmDrain Config.hw X).1, (asmDrain Config.hw X).2) := by
  obtain ⟨hlen, -, hemit⟩ := asmPass_frame hr hF
  rw [asmDrain_emit (hemit X), List.drop_left' hlen]

/-- A frame that is not all there yet is waited for. -/
theorem asmPass_incomplete_frame (hr : r.inRange = true) (hF : frameEncode Config.hw tlmEntry (.telemetry r) = .ok F)
    {A : Bytes} (hA : A <+: F) (hlt : A.length < F.length) : asmPass Config.hw A = .wait := by
  obtain ⟨X, rfl⟩ := hA
  obtain ⟨hlen, -, hemit⟩ := asmPass_frame hr hF
  have hemit := hemit []
  rw [List.append_nil] at hemit
  by_contra hdecided
  have hsize := (asmPass_emit_size ((asmPass_append X hdecided).symm.trans hemit)).2
  omega

/-- Settles O44 (R104): every piece but the last leaves a beginning of the frame, which is waited for; the last piece makes
up the frame, which is emitted. -/
theorem endToEnd : Obligations.EndToEnd := by
  intro r F s hr habuf hF
  have hwhole : asmDrain Config.hw F = ([.payload (.telemetry r)], []) := by
    have h := asmDrain_frame hr hF []
    rwa [List.append_nil] at h
  refine ⟨?_, fun pieces last hcut hlast => ?_⟩
  · rw [exec_eq_next, afterOp_asmFeed, asmFeed, habuf, List.nil_append, hwhole, ← habuf]
  · have hlastlen := List.length_pos_iff.2 hlast
    obtain ⟨hbuf, hcrcr, hcs⟩ := afterOps_waiting_pieces pieces s fun A hA => by
      rw [habuf, List.nil_append] at hA
      refine asmPass_incomplete_frame hr hF (hA.trans ⟨last, hcut⟩) ?_
      have hle := hA.length_le
      rw [← hcut, List.length_append]
      omega
    rw [habuf, List.nil_append] at hbuf
    have hfeed : asmFeed Config.hw (afterOps s (pieces.map .asmFeed)).abuf last = ([.payload (.telemetry r)], []) := by
      rw [asmFeed, hbuf, hcut, hwhole]
    have hc : (operate (.asmFeed last) (afterOps s (pieces.map .asmFeed)).toBlock).completion =
        ⟨.ok, 0#16, .events [.payload (.telemetry r)]⟩ := by
      rw [operate_asmFeed_completion, hfeed]
    refine ⟨_, _, runOps_eq _ s, ?_, ?_, ?_⟩
    · rw [List.map_append, afterOps_append]
      exact congrArg Prod.snd hfeed
    · rw [List.map_append, afterOps_append]
      exact hcrcr
    · rw [List.map_append, completionsOf_append, hcs, List.map_singleton, completionsOf_cons, hc]
      rfl

/-- Noise without a sync pair in front of a first sync byte is discarded without an event. -/
theorem asmDrain_noise {π : Type} (c : Config π) (t : Bytes) : ∀ {noise : Bytes}, noSyncPair noise = true →
    asmDrain c (noise ++ sync1 :: t) = asmDrain c (sync1 :: t)
  | [], _ => rfl
  | [a], _ => by
    refine asmDrain_discard ?_
    by_cases ha : a = sync1
    · subst ha
      exact asmPass_ne_sync2 t (by decide)
    · exact asmPass_ne_sync1 _ ha
  | a :: b :: noise, h => by
    simp only [noSyncPair, Bool.and_eq_true, Bool.not_eq_true', Bool.and_eq_false_imp, beq_iff_eq, beq_eq_false_iff_ne] at h
    obtain ⟨hpair, hrest⟩ := h
    have hdiscard : asmPass c (a :: b :: (noise ++ sync1 :: t)) = .discard := by
      by_cases ha : a = sync1
      · subst ha
        exact asmPass_ne_sync2 _ (hpair rfl)
      · exact asmPass_ne_sync1 _ ha
    exact (asmDrain_discard hdiscard).trans (asmDrain_noise c t hrest)

/-- Frames of in-range records, one behind the other, give their payloads in order. -/
theorem asmDrain_frames : ∀ (frames : List (Record × Bytes)),
    (∀ x ∈ frames, x.1.inRange = true ∧ frameEncode Config.hw tlmEntry (.telemetry x.1) = .ok x.2) →
    asmDrain Config.hw (frames.map (·.2)).flatten = (frames.map fun x => .payload (.telemetry x.1), [])
  | [], _ => rfl
  | x :: frames, h => by
    obtain ⟨⟨hr, hF⟩, hrest⟩ := List.forall_mem_cons.1 h
    rw [List.map_cons, List.flatten_cons, asmDrain_frame hr hF, asmDrain_frames frames hrest]
    rfl

/-- Settles O45 (R98): the noise is discarded up to the first frame's sync pair. -/
theorem noiseIsDroppedAndFramesAreFound : Obligations.NoiseIsDroppedAndFramesAreFound := by
  intro noise frames hnoise hframes hne
  have hdrain := asmDrain_frames frames hframes
  obtain ⟨x, frames, rfl⟩ := List.exists_cons_of_ne_nil hne
  obtain ⟨hr, hF⟩ := hframes x List.mem_cons_self
  obtain ⟨-, ⟨t, ht⟩, -⟩ := asmPass_frame hr hF
  rw [asmFeed, List.nil_append, ← hdrain, List.map_cons, List.flatten_cons, ht]
  exact asmDrain_noise Config.hw _ hnoise

/-- Settles O46 (R97, R98): the bad candidate costs its first byte, its other bytes are noise in front of the good frame. -/
theorem goodFrameAfterCorruptedFrameIsFound : Obligations.GoodFrameAfterCorruptedFrameIsFound := by
  intro bad F r hlen hbad hnoise hr hF
  obtain ⟨b0, b1, b2, b3, b4, b5, body, rfl⟩ := header_of_length (B := bad) (by omega)
  obtain ⟨rfl, rfl⟩ : b0 = sync1 ∧ b1 = sync2 := by
    by_contra hsync
    cases (frameDecode_bad_sync b2 b3 b4 b5 body hsync).symm.trans hbad
  obtain ⟨-, ⟨t, ht⟩, -⟩ := asmPass_frame hr hF
  have hdrop := asmPass_of_rejected hbad (by decide)
  have hdrop' : asmPass Config.hw (sync1 :: ((sync2 :: b2 :: b3 :: b4 :: b5 :: body) ++ F)) =
      .drop ⟨.checksumMismatch, 0#16⟩ := (asmPass_append F (by rw [hdrop]; nofun)).trans hdrop
  have hskip : asmDrain Config.hw ((sync2 :: b2 :: b3 :: b4 :: b5 :: body) ++ F) = asmDrain Config.hw F := by
    rw [ht]
    exact asmDrain_noise Config.hw _ hnoise
  have hgood := asmDrain_frame hr hF []
  rw [List.append_nil] at hgood
  rw [asmFeed, List.nil_append, List.cons_append, asmDrain_drop hdrop', hskip, hgood]
  rfl

end Frames

end Sys2Proof.Machine
